-- ==== Sys2Proof/Word.lean ====
section
/-! DEFINITION. The word types of the block: a command word or a coder register is 32 bits, a stream byte 8 bits, a table
entry address 16 bits (spec 00_scope.md R6, R9). -/

namespace Sys2Proof

/-- A 32-bit word: `RNG`, `VAL`, `RESULT`, a command word, a table entry (00_scope.md R6). -/
abbrev Word := BitVec 32

/-- A byte of the stream (20_memory.md R50). -/
abbrev Byte := BitVec 8

/-- A table-memory entry address; it counts entries, not bytes (20_memory.md R51). -/
abbrev Addr := BitVec 16

end Sys2Proof
end

