-- ==== Sys2Proof/Config.lean ====
section
/-! DEFINITION. The fixed parameters of the block (spec 00_scope.md R6) and the free values: what the spec leaves open
is an opaque constant, so that a statement can rest on no value of it. -/

namespace Sys2Proof.Config

/-- `NORM_THRESHOLD` = 2^23 (00_scope.md R6, 43_normalize_bits.md R144). -/
def normThreshold : Nat := 2 ^ 23

/-- `FT_MAX` = 65536, the largest legal total frequency (00_scope.md R6). -/
def ftMax : Nat := 65536

/-- `LOGP_MAX` = 23 (00_scope.md R6, 30_encoding.md R74). -/
def logpMax : Nat := 23

/-- `INIT_BITS`: the bits initialization reads before its normalization (00_scope.md R6). -/
def initBits : Nat := 7

/-- `NORM_BITS`: the bits one normalization step reads (00_scope.md R6). -/
def normBits : Nat := 8

/-- The last table-memory entry address (30_encoding.md R76). -/
def addrMax : Nat := 0xFFFF

/-- `RNG` after an exhaustion failure: any u32 (60_exceptions.md R163, U3; log 4). -/
opaque freeRng : Nat → Word

/-- `VAL` after an exhaustion failure: any u32 (60_exceptions.md R163, U3; log 4). -/
opaque freeVal : Nat → Word

/-- `CBYTE` after an exhaustion failure: any u8 (60_exceptions.md R163, U3; log 4). -/
opaque freeCbyte : Nat → Byte

/-- `CCNT` after an exhaustion failure: any value in 0..8 (60_exceptions.md R163, U3; log 4). -/
opaque freeCcnt : Nat → Fin 9

/-- What a read of `RESULT`, `RNG`, `VAL` or `CUR` returns while `BUSY = 1`: any value (10_state.md R35, U2; log 8). -/
opaque freeBusyRead : Nat → Word

/-- The quotient of a number by 0, which 00_scope.md R10 does not define. DESIGN CHOICE, safe: a function of the
dividend; it is met only with a `scale` of 0, in states that no run reaches (log 6). -/
opaque freeQuotient : Nat → Nat

end Sys2Proof.Config
end

