-- ==== Sys2Proof/Syntax.lean ====
section
/-! DEFINITION. The commands of the block: one constructor per row of spec/opcode_table.json (spec 30_encoding.md R72). -/

namespace Sys2Proof

/-- A command with its operand fields, as wide as its format gives them (30_encoding.md R73 to R77). -/
inductive Instr where
  /-- `INIT`, format N: constructs a decoder over the stream (41_lifecycle_init.md R113). -/
  | init
  /-- `DECLOGP logp`, format L: decodes a binary symbol of probability 2^-logp (42_symbol_decode.md R132). -/
  | declogp (logp : BitVec 5)
  /-- `DECICDF tbase, nsym`, format T: decodes a symbol against a table (42_symbol_decode.md R122). -/
  | decicdf (tbase : Addr) (nsym : BitVec 8)
  /-- `LUTRD idx`, format X: reads one entry of the renormalization_lut (40_lut.md R106). -/
  | lutrd (idx : BitVec 8)
deriving DecidableEq, Repr

end Sys2Proof
end

