-- ==== Sys2Proof/WellFormed.lean ====
section
/-! DEFINITION. Which operand values a command may carry (spec 30_encoding.md R74 to R77). -/

namespace Sys2Proof

/-- `logp` is at most `LOGP_MAX` (30_encoding.md R74). -/
abbrev logpLegal (logp : BitVec 5) : Prop := logp.toNat ≤ Config.logpMax

/-- The table has at least one symbol (30_encoding.md R75). -/
abbrev nsymLegal (nsym : BitVec 8) : Prop := 1 ≤ nsym.toNat

/-- The table window does not wrap past the top of table memory (30_encoding.md R76). -/
abbrev windowLegal (tbase : Addr) (nsym : BitVec 8) : Prop := tbase.toNat + nsym.toNat ≤ Config.addrMax

/-- The check of a command's operands (30_encoding.md R74 to R77). -/
def Instr.check : Instr → Bool
  | .init => true
  | .declogp logp => decide (logpLegal logp)
  | .decicdf tbase nsym => decide (nsymLegal nsym) && decide (windowLegal tbase nsym)
  | .lutrd _ => true

/-- The command's operands are in their legal ranges (30_encoding.md R74 to R77). -/
abbrev Instr.WellFormed (i : Instr) : Prop := i.check = true

end Sys2Proof
end

