-- ==== Sys2Proof/Decode.lean ====
section
/-! DEFINITION. Decoding a command word, total on all 2^32 words and rejecting by name, and after it the encoder
(spec 30_encoding.md R70 to R79). -/

namespace Sys2Proof

/-- Why a word is no legal command (30_encoding.md R79). The block reports all of them as `ERR = ILLEGAL`. -/
inductive IllegalReason where
  /-- `OP` is 0x0 or 0x5..0xF (R72). -/
  | reservedOpcode
  /-- A reserved-zero bit is set (R71). -/
  | reservedBits
  /-- `logp` is 24..31 (R74). -/
  | logpRange
  /-- `NSYM = 0` (R75). -/
  | noSymbols
  /-- `TBASE + NSYM > 0xFFFF` (R76). -/
  | windowWraps
deriving DecidableEq, Repr

/-- What the decoder answers. -/
inductive Decoded where
  | legal (i : Instr)
  | illegal (why : IllegalReason)
deriving DecidableEq, Repr

/-- The command, where there is one. -/
def Decoded.instr? : Decoded → Option Instr
  | .legal i => some i
  | .illegal _ => none

/-- `OP = w[31:28]` (30_encoding.md R71). -/
def opField (w : Word) : BitVec 4 := w.extractLsb' 28 4

/-- Format N: bits 27..0 are reserved-zero (30_encoding.md R73). -/
def decodeN (w : Word) : Decoded :=
  if w.extractLsb' 0 28 = 0 then .legal .init else .illegal .reservedBits

/-- Format L: bits 27..5 are reserved-zero, `LOGP` is bits 4..0 (30_encoding.md R74). -/
def decodeL (w : Word) : Decoded :=
  if w.extractLsb' 5 23 = 0 then
    if logpLegal (w.extractLsb' 0 5) then .legal (.declogp (w.extractLsb' 0 5)) else .illegal .logpRange
  else .illegal .reservedBits

/-- Format T: bits 27..24 are reserved-zero, `TBASE` is bits 23..8, `NSYM` bits 7..0 (30_encoding.md R75, R76). -/
def decodeT (w : Word) : Decoded :=
  if w.extractLsb' 24 4 = 0 then
    if nsymLegal (w.extractLsb' 0 8) then
      if windowLegal (w.extractLsb' 8 16) (w.extractLsb' 0 8) then
        .legal (.decicdf (w.extractLsb' 8 16) (w.extractLsb' 0 8))
      else .illegal .windowWraps
    else .illegal .noSymbols
  else .illegal .reservedBits

/-- Format X: bits 27..8 are reserved-zero, `IDX` is bits 7..0 (30_encoding.md R77). -/
def decodeX (w : Word) : Decoded :=
  if w.extractLsb' 8 20 = 0 then .legal (.lutrd (w.extractLsb' 0 8)) else .illegal .reservedBits

/-- The decoder: the opcode map of 30_encoding.md R72. It depends on the word alone (R80). -/
def decodeWord (w : Word) : Decoded :=
  match (opField w).toNat with
  | 1 => decodeN w
  | 2 => decodeL w
  | 3 => decodeT w
  | 4 => decodeX w
  | _ => .illegal .reservedOpcode

/-- The encoder: each format as its row of fields, most significant first (30_encoding.md R73 to R77, R81). -/
def encode : Instr → Word
  | .init => 0x1#4 ++ 0#28
  | .declogp logp => 0x2#4 ++ 0#23 ++ logp
  | .decicdf tbase nsym => 0x3#4 ++ 0#4 ++ tbase ++ nsym
  | .lutrd idx => 0x4#4 ++ 0#20 ++ idx

/-- The command word whose low `nbits` bits are those of `w` and whose other bits are 0. A command is one 32-bit
word, presented whole, so no byte order enters (30_encoding.md R70). -/
def tableWord (nbits w : Nat) : Word := BitVec.ofNat 32 (w % 2 ^ nbits)

/-- The command this decoder reads from a word numbered as spec/opcode_table.json numbers it. -/
def decodeTableWord (nbits w : Nat) : Option Instr := (decodeWord (tableWord nbits w)).instr?

end Sys2Proof
end

