-- ==== Sys2Proof/Machine/Lut.lean ====
section
/-! DEFINITION. The renormalization_lut: a constant of the block, so it is a pair of functions and no field of State
(spec 10_state.md R31, 40_lut.md R100 to R103). -/

namespace Sys2Proof.Machine

/-- `normalize_shift[i]`: the smallest `s` with `(i << s) >= 128`, and 8 where there is none (40_lut.md R101). -/
def lutShift (i : Byte) : BitVec 4 :=
  BitVec.ofNat 4 (((List.range 8).find? fun s => decide (128 ≤ i.toNat * 2 ^ s)).getD 8)

/-- `normalize_add[i] = (1 << normalize_shift[i]) - 1` (40_lut.md R102). -/
def lutAdd (i : Byte) : Byte := BitVec.ofNat 8 (2 ^ (lutShift i).toNat - 1)

/-- The word `LUTRD` returns: `zext_32({a, 0b0000, s})` (40_lut.md R106). -/
def lutWord (i : Byte) : Word := (lutAdd i ++ 0#4 ++ lutShift i).setWidth 32

end Sys2Proof.Machine
end

