-- ==== Sys2Proof/Machine/State.lean ====
section
/-! DEFINITION. The state of one decoder core with its ports, as plain data: the block's registers (spec 10_state.md
R23 to R30), its hidden state (R36), the byte source and the table memory (00_scope.md R7), the host's steps still to
come (R22), and the state after reset (R40). -/

namespace Sys2Proof.Machine

/-- `STATE`, the lifecycle state (10_state.md R27). -/
inductive Lifecycle where
  /-- 0: no decoder has been constructed since reset. -/
  | uninit
  /-- 1: `INIT` succeeded and no decode command has succeeded since. -/
  | constructed
  /-- 2: at least one decode command has succeeded since the last `INIT`. -/
  | decoding
  /-- 3: the byte source reported end-of-data during the current decoder lifetime. -/
  | exhausted
deriving DecidableEq, Repr

/-- `ERR`, the outcome code of the most recently completed command (10_state.md R28). The codes 4..15 are never
written. -/
inductive ErrCode where
  /-- 0: the command completed. -/
  | ok
  /-- 1: input exhaustion (60_exceptions.md R163, R165). -/
  | exhausted
  /-- 2: the command word is not a legal encoding (60_exceptions.md R162). -/
  | illegal
  /-- 3: a decode command in state `UNINIT` (60_exceptions.md R164). -/
  | notReady
deriving DecidableEq, Repr

/-- The block's hidden state, which exists only while `BUSY = 1` (10_state.md R36). -/
structure InFlight where
  /-- The command being executed: accepted, and no register changed by it yet (log 7). -/
  command : Word
  /-- The bytes the byte source has delivered to it so far; they have left `STREAM` (20_memory.md R53). -/
  delivered : List Byte
  /-- A byte request is outstanding (`bs_req`). -/
  byteRequest : Bool
  /-- The table-memory read outstanding, by its address (`tbl_req`, `tbl_addr`). -/
  tableRead : Option Addr
deriving DecidableEq, Repr

/-- A step of the host (70_reset_and_hazards.md R204; reset, at any time: R190). -/
inductive HostStep where
  /-- Presents a command word on the command port (30_encoding.md R70). -/
  | command (w : Word)
  /-- Positions the byte source: what it has still to deliver (70_reset_and_hazards.md R194). -/
  | setStream (bytes : List Byte)
  /-- Writes one entry of the table memory (70_reset_and_hazards.md R195). -/
  | writeTable (a : Addr) (v : Word)
  /-- Reads a register through the register read port (10_state.md R32). -/
  | readReg (a : BitVec 3)
  /-- Asserts and releases reset between commands (70_reset_and_hazards.md R190). -/
  | reset
  /-- Presents a command word and asserts reset while the command runs, when it has taken `n` bytes, or all it takes if
  those are fewer (70_reset_and_hazards.md R190, R191; log 14). -/
  | resetDuring (w : Word) (n : Nat)
deriving DecidableEq, Repr

/-- The table memory `TBL_MEM`: (entry address, entry) pairs in the canonical form of `TableMem.Wf`; an address that is
not listed reads as 0 (20_memory.md R51; log 2, log 12). -/
abbrev TableMem := List (Nat × Word)

/-- One decoder core, its byte source, its table memory and its host. -/
structure State where
  /-- `RNG`, the range register (10_state.md R23). -/
  rng : Word
  /-- `VAL`, the value register (10_state.md R24). -/
  val : Word
  /-- `CBYTE`, the byte being shifted out by the bit cursor (10_state.md R25). -/
  cbyte : Byte
  /-- `CCNT`, the count of bits of `CBYTE` already consumed, 0..8 (10_state.md R26). -/
  ccnt : Fin 9
  /-- `STATE` (10_state.md R27). -/
  state : Lifecycle
  /-- `ERR` (10_state.md R28). -/
  err : ErrCode
  /-- `RESULT` (10_state.md R30). -/
  result : Word
  /-- The hidden state (10_state.md R36); `BUSY` (R29) is whether there is any. -/
  inFlight : Option InFlight
  /-- `STREAM`: the bytes the source has not yet delivered; end-of-data follows them (20_memory.md R53). -/
  stream : List Byte
  /-- The number of bytes taken from the byte source since the stream was set (70_reset_and_hazards.md R204). -/
  fetched : Nat
  /-- `TBL_MEM` (20_memory.md R51). -/
  table : TableMem
  /-- What the register read port answered last (`reg_rdata`, 10_state.md R38). -/
  regRdata : Word
  /-- The host's steps still to come, first one first (the host's state, 10_state.md R22; log 1). -/
  host : List HostStep
  /-- The MODEL's own: how many free values have been drawn (60_exceptions.md R163, 10_state.md R35; log 4). -/
  draws : Nat
deriving DecidableEq, Repr

/-- `BUSY` (10_state.md R29). -/
def State.busy (s : State) : Bool := s.inFlight.isSome

/-- Why the machine stops. Both are safe, and neither can happen while `BUSY = 0`, which is in every state of a run. -/
inductive Fault where
  /-- The host writes a table entry in the window of the `DECICDF` in flight: stuck (20_memory.md R62, U7; log 10).
  Raised by the host step `writeTable`. -/
  | tableWriteInRunningWindow
  /-- The host changes the byte source while `BUSY = 1`, against its duty (70_reset_and_hazards.md R194; log 9).
  Raised by the host step `setStream`. -/
  | streamChangedWhileBusy
deriving DecidableEq, Repr

/-- Why the model gives a command no meaning. -/
inductive Refusal where
  /-- An instruction that has no meaning yet. Raised by `exec`'s arm; safe. -/
  | notModelled (mnemonic : String)
  /-- `MALFORMED_TABLE`: a `DECICDF` that runs on a table that is not well-formed (42_symbol_decode.md R129, U1; log 5).
  Raised by `execDecicdf`; safe. -/
  | malformedTable
deriving DecidableEq, Repr

/-- The machine right after reset (10_state.md R40). What R40 does not fix is the host's and is nothing yet: no byte in
the stream, no table entry listed, no host step (DESIGN CHOICE, log 1, log 2, log 3), and 0 in `regRdata` and in `draws`
(DESIGN CHOICE, log 11, log 4). -/
def State.reset : State where
  rng := 0
  val := 0
  cbyte := 0
  ccnt := 8
  state := .uninit
  err := .ok
  result := 0
  inFlight := none
  stream := []
  fetched := 0
  table := []
  regRdata := 0
  host := []
  draws := 0

end Sys2Proof.Machine
end

