-- ==== Sys2Proof/Machine/Ops.lean ====
section
/-! DEFINITION. The named operations of the block over its two outside stores and its coder registers: table memory
(spec 20_memory.md R51), the byte source (R53), raw bits (43_normalize_bits.md R141), renormalization (R145), and how a
command ends (60_exceptions.md R160 to R165). -/

namespace Sys2Proof.Machine

/-! ## Table memory -/

/-- What a table entry that is not listed reads as. DESIGN CHOICE, unsafe (log 2): the platform's choice in
20_memory.md R51. -/
def TableMem.unlisted : Word := 0

/-- The entry listed at a key, or what an unlisted one reads as. -/
def TableMem.readAt : TableMem → Nat → Word
  | [], _ => TableMem.unlisted
  | (k, v) :: m, a => if k = a then v else TableMem.readAt m a

/-- Stores an entry in key order; storing what an unlisted entry reads as takes the listed one out. -/
def TableMem.writeAt : TableMem → Nat → Word → TableMem
  | [], a, v => if v = TableMem.unlisted then [] else [(a, v)]
  | (k, x) :: m, a, v =>
    if a < k then (if v = TableMem.unlisted then (k, x) :: m else (a, v) :: (k, x) :: m)
    else if a = k then (if v = TableMem.unlisted then m else (k, v) :: m)
    else (k, x) :: TableMem.writeAt m a v

/-- The canonical form: keys strictly rising, each an entry address, and no entry equal to what an unlisted one reads
as. `lo` is the least key allowed. -/
def TableMem.wfFrom : Nat → TableMem → Bool
  | _, [] => true
  | lo, (k, v) :: m =>
    decide (lo ≤ k) && decide (k ≤ Config.addrMax) && decide (v ≠ TableMem.unlisted) && TableMem.wfFrom (k + 1) m

/-- The table memory is in canonical form. -/
def TableMem.wf (m : TableMem) : Bool := TableMem.wfFrom 0 m

/-- `TblRead(a)` (20_memory.md R51). -/
def tblRead (m : TableMem) (a : Addr) : Word := TableMem.readAt m a.toNat

/-- A host write of one entry (20_memory.md R62). -/
def tblWrite (m : TableMem) (a : Addr) (v : Word) : TableMem := TableMem.writeAt m a.toNat v

/-! ## Byte source and raw bits -/

/-- What an operation that may `raise Exhausted` answers (00_scope.md R13): a value and the state so far, or the state
in which the byte source reported end-of-data. -/
inductive Raised (α : Type) where
  | ok (a : α) (s : State)
  | exhausted (s : State)
deriving DecidableEq, Repr

/-- `FetchByte()` (20_memory.md R53): the next byte, taken from the source, or end-of-data. -/
def fetchByte (s : State) : Option (Byte × State) :=
  match s.stream with
  | [] => none
  | b :: rest => some (b, { s with stream := rest, fetched := s.fetched + 1 })

/-- `CBYTE[7 - CCNT]`, the bit the cursor takes next (43_normalize_bits.md R140). -/
def cursorBit (s : State) : Nat := s.cbyte.toNat / 2 ^ (7 - s.ccnt.val) % 2

/-- Fetches a byte into the cursor if, and only if, the cursor is empty (43_normalize_bits.md R141, R142). -/
def refill (s : State) : Option State :=
  if s.ccnt = 8 then
    match fetchByte s with
    | none => none
    | some (x, s1) => some { s1 with cbyte := x, ccnt := 0 }
  else some s

/-- `ReadBits` with `n` bits still to read and `r` read so far (43_normalize_bits.md R141). -/
def readBitsInto : Nat → Nat → State → Raised Nat
  | 0, r, s => .ok r s
  | n + 1, r, s =>
    match refill s with
    | none => .exhausted s
    | some s1 => readBitsInto n (r * 2 + cursorBit s1) { s1 with ccnt := s1.ccnt + 1 }

/-- `ReadBits(n)` (43_normalize_bits.md R141). -/
def readBits (n : Nat) (s : State) : Raised Nat := readBitsInto n 0 s

/-! ## Renormalization -/

/-- `RNG[31:24]`, the top byte of `RNG`, which indexes the lookup table (43_normalize_bits.md R145). -/
def topByte (rng : Word) : Byte := rng.extractLsb' 24 8

/-- One pass of the renormalization loop's body (43_normalize_bits.md R145, R146). -/
def normalizeStep (s : State) : Raised Unit :=
  let i := topByte s.rng
  let sh := (lutShift i).toNat
  let m := (lutAdd i).toNat
  match readBits Config.normBits { s with rng := BitVec.ofNat 32 (s.rng.toNat * 2 ^ sh) } with
  | .exhausted s1 => .exhausted s1
  | .ok c s1 => .ok () { s1 with val := BitVec.ofNat 32 ((s1.val.toNat * 2 ^ sh + (m - c)) % 2 ^ 31) }

/-- The renormalization loop (43_normalize_bits.md R144, R145), `fuel` passes at most. -/
def normalizeLoop : Nat → State → Raised Unit
  | 0, s => .exhausted s
  | fuel + 1, s =>
    if s.rng.toNat ≤ Config.normThreshold then
      match normalizeStep s with
      | .exhausted s1 => .exhausted s1
      | .ok _ s1 => normalizeLoop fuel s1
    else .ok () s

/-- `Normalize()` (43_normalize_bits.md R145). Every pass but one at most takes a byte from the stream, so this fuel never
runs out before the loop ends (log 18; `normalize_eq` in Sys2Proof/Laws/Normalize.lean). -/
def normalize (s : State) : Raised Unit := normalizeLoop (s.stream.length + 2) s

/-! ## How a command ends -/

/-- `raise Illegal` (60_exceptions.md R162): `ERR` alone changes. -/
def raiseIllegal (s : State) : State := { s with err := .illegal }

/-- `raise NotReady` (60_exceptions.md R164): `ERR` alone changes. -/
def raiseNotReady (s : State) : State := { s with err := .notReady }

/-- A decode command in state `EXHAUSTED` (60_exceptions.md R165): `ERR` alone changes. -/
def reportExhausted (s : State) : State := { s with err := .exhausted }

/-- `raise Exhausted` in state `s`, where end-of-data was met (60_exceptions.md R163): the coder registers hold free
values (log 4), the bytes fetched stay consumed, `RESULT` is unchanged. -/
def raiseExhausted (s : State) : State :=
  { s with
    rng := Config.freeRng s.draws
    val := Config.freeVal s.draws
    cbyte := Config.freeCbyte s.draws
    ccnt := Config.freeCcnt s.draws
    state := .exhausted
    err := .exhausted
    draws := s.draws + 1 }

/-- A decode command that completes with `OK` (42_symbol_decode.md R127, R135). -/
def completeDecode (result : Word) (s : State) : State :=
  { s with result := result, state := .decoding, err := .ok }

/-- `INIT` that completes with `OK` (41_lifecycle_init.md R113). -/
def completeInit (s : State) : State := { s with state := .constructed, err := .ok }

/-- `LUTRD` completes with `OK` (40_lut.md R106). -/
def completeLutrd (result : Word) (s : State) : State := { s with result := result, err := .ok }

/-- Writes `RNG` and `VAL`. Every value written is below 2^32 where the rules hold (00_scope.md R10). -/
def loadCoder (rng val : Nat) (s : State) : State :=
  { s with rng := BitVec.ofNat 32 rng, val := BitVec.ofNat 32 val }

/-- Ends a command whose last operation may have raised `Exhausted` (00_scope.md R13, 60_exceptions.md R163). -/
def finish (complete : State → State) : Raised Unit → Host.Outcome State Fault Refusal
  | .exhausted s => .next (raiseExhausted s)
  | .ok _ s => .next (complete s)

/-- The lifecycle checks before a decode command runs, in the order of 60_exceptions.md R166. -/
def whenReady (s : State) (run : State → Host.Outcome State Fault Refusal) : Host.Outcome State Fault Refusal :=
  match s.state with
  | .uninit => .next (raiseNotReady s)
  | .exhausted => .next (reportExhausted s)
  | .constructed => run s
  | .decoding => run s

/-- What reset leaves (10_state.md R40, 70_reset_and_hazards.md R190, R191): the block's registers at their reset values and
any command in flight abandoned; nothing outside the block changes. -/
def applyReset (s : State) : State :=
  { s with
    rng := State.reset.rng
    val := State.reset.val
    cbyte := State.reset.cbyte
    ccnt := State.reset.ccnt
    state := State.reset.state
    err := State.reset.err
    result := State.reset.result
    inFlight := State.reset.inFlight }

end Sys2Proof.Machine
end

