-- ==== Sys2Proof/Machine/Operands.lean ====
section
/-! DEFINITION. The operands of the decode commands: the ICDF table a `DECICDF` names (spec 42_symbol_decode.md R120,
R121), the search in it (R123), the symbol's bounds (R124), and the division of 00_scope.md R10. -/

namespace Sys2Proof.Machine

/-- A table as its entries by number: `e j` is `e[j]`. -/
abbrev Entries := Nat → Nat

/-- `e[j] = TblRead(TBASE + j)` (42_symbol_decode.md R120). The address does not wrap for a legal window. -/
def entries (m : TableMem) (tbase : Addr) : Entries := fun j => (tblRead m (tbase + BitVec.ofNat 16 j)).toNat

/-- The table `e[0..nsym]` is well-formed, item by item (42_symbol_decode.md R121). -/
def tableWellFormed (e : Entries) (nsym : Nat) : Bool :=
  decide (1 ≤ e 0) && decide (e 0 ≤ Config.ftMax)
    && (List.range (nsym - 1)).all (fun j => decide (e (j + 1) ≤ e (j + 2)))
    && decide (e nsym = e 0) && decide (1 ≤ nsym)

/-- `Search`: the smallest `j` in `0..nsym-1` with `e[j+1] > fs`, else `nsym - 1` (42_symbol_decode.md R123). -/
def search (e : Entries) (nsym fs : Nat) : Nat :=
  ((List.range nsym).find? fun j => decide (fs < e (j + 1))).getD (nsym - 1)

/-- `fl(k)`: 0 for symbol 0, else `e[k]` (42_symbol_decode.md R120, R124). -/
def lowBound (e : Entries) (k : Nat) : Nat := if k = 0 then 0 else e k

/-- `fh(k) = e[k+1]` (42_symbol_decode.md R120, R124). -/
def highBound (e : Entries) (k : Nat) : Nat := e (k + 1)

/-- `a / b`, floor division for `b > 0`; the quotient by 0 is not defined (00_scope.md R10; a free value, log 6). -/
def floorDiv (a b : Nat) : Nat := if b = 0 then Config.freeQuotient a else a / b

/-- `fs = ft - min(t + 1, ft)` (42_symbol_decode.md R122). -/
def scaledPosition (ft t : Nat) : Nat := ft - min (t + 1) ft

/-- `DECLOGP`'s `scale = RNG >> logp` (42_symbol_decode.md R132). -/
def logpScale (rng : Nat) (logp : BitVec 5) : Nat := rng / 2 ^ logp.toNat

/-- A `DECICDF` window holds the address (20_memory.md R52). -/
def inWindow (tbase : Addr) (nsym : BitVec 8) (a : Addr) : Bool :=
  decide (tbase.toNat ≤ a.toNat) && decide (a.toNat ≤ tbase.toNat + nsym.toNat)

end Sys2Proof.Machine
end

