-- ==== Sys2Proof/Machine/Decicdf.lean ====
section
/-! DEFINITION. The table symbol decode `DECICDF` (spec 42_symbol_decode.md R122 to R130). -/

namespace Sys2Proof.Machine

/-- `scale = RNG / ft` (42_symbol_decode.md R122). -/
def icdfScale (e : Entries) (s : State) : Nat := floorDiv s.rng.toNat (e 0)

/-- The decoded symbol `k` (42_symbol_decode.md R122, R123). -/
def icdfSymbol (e : Entries) (nsym : Nat) (s : State) : Nat :=
  search e nsym (scaledPosition (e 0) (floorDiv s.val.toNat (icdfScale e s)))

/-- The update of `RNG` and `VAL` for the symbol `k` (42_symbol_decode.md R125, R126). -/
def icdfUpdate (e : Entries) (k : Nat) (s : State) : State :=
  let scale := icdfScale e s
  let below := scale * (e 0 - highBound e k)
  if 0 < lowBound e k then loadCoder (scale * (highBound e k - lowBound e k)) (s.val.toNat - below) s
  else loadCoder (s.rng.toNat - below) (s.val.toNat - below) s

/-- The body of `DECICDF`, once the command is legal and the decoder ready: the table is checked before the step, and one
that is not well-formed is refused by name (42_symbol_decode.md R122, R129). -/
def runDecicdf (tbase : Addr) (nsym : BitVec 8) (s : State) : Host.Outcome State Fault Refusal :=
  let e := entries s.table tbase
  if tableWellFormed e nsym.toNat then
    let k := icdfSymbol e nsym.toNat s
    finish (completeDecode (BitVec.ofNat 32 k)) (normalize (icdfUpdate e k s))
  else .refused .malformedTable

/-- `DECICDF tbase, nsym` with its dispatch checks (60_exceptions.md R166). -/
def execDecicdf (tbase : Addr) (nsym : BitVec 8) (s : State) : Host.Outcome State Fault Refusal :=
  if nsymLegal nsym ∧ windowLegal tbase nsym then whenReady s (runDecicdf tbase nsym) else .next (raiseIllegal s)

end Sys2Proof.Machine
end

