-- ==== Sys2Proof/Machine/Declogp.lean ====
section
/-! DEFINITION. The binary symbol decode `DECLOGP` (spec 42_symbol_decode.md R132 to R137). -/

namespace Sys2Proof.Machine

/-- The decoded bit: 1 exactly when `VAL < scale` (42_symbol_decode.md R134). -/
def logpBit (val scale : Nat) : Nat := if scale ≤ val then 0 else 1

/-- The update of `RNG` and `VAL` (42_symbol_decode.md R133). -/
def logpUpdate (scale : Nat) (s : State) : State :=
  if scale ≤ s.val.toNat then loadCoder (s.rng.toNat - scale) (s.val.toNat - scale) s
  else loadCoder scale s.val.toNat s

/-- The body of `DECLOGP`, once the command is legal and the decoder ready (42_symbol_decode.md R132). -/
def runDeclogp (logp : BitVec 5) (s : State) : Host.Outcome State Fault Refusal :=
  let scale := logpScale s.rng.toNat logp
  finish (completeDecode (BitVec.ofNat 32 (logpBit s.val.toNat scale))) (normalize (logpUpdate scale s))

/-- `DECLOGP logp` with its dispatch checks (60_exceptions.md R166). -/
def execDeclogp (logp : BitVec 5) (s : State) : Host.Outcome State Fault Refusal :=
  if logpLegal logp then whenReady s (runDeclogp logp) else .next (raiseIllegal s)

end Sys2Proof.Machine
end

