-- ==== Sys2Proof/Machine/Init.lean ====
section
/-! DEFINITION. The lifecycle command `INIT` (spec 41_lifecycle_init.md R111 to R115). -/

namespace Sys2Proof.Machine

/-- `INIT` empties the bit cursor: unread bits of the previous lifetime are dropped (41_lifecycle_init.md R112). -/
def emptyCursor (s : State) : State := { s with cbyte := 0, ccnt := 8 }

/-- `INIT` (41_lifecycle_init.md R113), allowed in every `STATE` (R111). -/
def execInit (s : State) : Host.Outcome State Fault Refusal :=
  match readBits Config.initBits (emptyCursor s) with
  | .exhausted s1 => .next (raiseExhausted s1)
  | .ok b s1 => finish completeInit (normalize (loadCoder 128 (127 - b) s1))

end Sys2Proof.Machine
end

