-- ==== Sys2Proof/Machine/Lutrd.lean ====
section
/-! DEFINITION. The lookup-table read `LUTRD` (spec 40_lut.md R106). -/

namespace Sys2Proof.Machine

/-- `LUTRD idx`, allowed in every `STATE` (40_lut.md R106). -/
def execLutrd (idx : BitVec 8) (s : State) : Host.Outcome State Fault Refusal := .next (completeLutrd (lutWord idx) s)

end Sys2Proof.Machine
end

