-- ==== Sys2Proof/Machine/Dispatch.lean ====
section
/-! DEFINITION. The dispatch of a legal command to its meaning (spec 60_exceptions.md R166). -/

namespace Sys2Proof.Machine

def exec (i : Instr) (s : State) : Host.Outcome State Fault Refusal :=
  match i with
  | .init => Sys2Proof.Machine.execInit s
  | .declogp logp => Sys2Proof.Machine.execDeclogp logp s
  | .decicdf tbase nsym => Sys2Proof.Machine.execDecicdf tbase nsym s
  | .lutrd idx => Sys2Proof.Machine.execLutrd idx s

end Sys2Proof.Machine
end

