-- ==== Sys2Proof/Machine/Flags.lean ====
section
/-! DEFINITION. The status codes and what the host reads: the encodings of `STATE` and `ERR` (spec 10_state.md R27, R28),
the layouts of `STATUS` and `CUR` (R33, R34), the register read port (R32, R35), and the port levels that follow from
the hidden state (R38). -/

namespace Sys2Proof.Machine

/-- The encoding of `STATE` (10_state.md R27). -/
def Lifecycle.code : Lifecycle → BitVec 2
  | .uninit => 0
  | .constructed => 1
  | .decoding => 2
  | .exhausted => 3

/-- The encoding of `ERR` (10_state.md R28). -/
def ErrCode.code : ErrCode → BitVec 4
  | .ok => 0
  | .exhausted => 1
  | .illegal => 2
  | .notReady => 3

/-- `STATUS = zext_32({ERR, 0b0, BUSY, STATE})` (10_state.md R33). -/
def statusWord (s : State) : Word :=
  (s.err.code ++ 0#1 ++ BitVec.ofBool s.busy ++ s.state.code).setWidth 32

/-- `CUR = zext_32({CCNT, CBYTE})` (10_state.md R34). -/
def curWord (s : State) : Word := (BitVec.ofNat 4 s.ccnt.val ++ s.cbyte).setWidth 32

/-- The register read map while `BUSY = 0` (10_state.md R32). -/
def readIdle (a : BitVec 3) (s : State) : Word :=
  match a.toNat with
  | 0 => statusWord s
  | 1 => s.result
  | 2 => s.rng
  | 3 => s.val
  | 4 => curWord s
  | _ => 0

/-- A register is one whose read is unspecified while `BUSY = 1`: `RESULT`, `RNG`, `VAL`, `CUR` (10_state.md R35). -/
def unstableWhileBusy (a : BitVec 3) : Bool := decide (1 ≤ a.toNat) && decide (a.toNat ≤ 4)

/-- The host's read of a register: the port's answer is in `regRdata`, and nothing of the block changes
(10_state.md R32, R35; while `BUSY = 1` a free value, log 8). -/
def readPort (a : BitVec 3) (s : State) : State :=
  if s.busy && unstableWhileBusy a then
    { s with regRdata := Config.freeBusyRead s.draws, draws := s.draws + 1 }
  else { s with regRdata := readIdle a s }

/-- `cmd_ready` equals NOT `BUSY` (10_state.md R38). -/
def cmdReady (s : State) : Bool := !s.busy

/-- `bs_req`: a byte request is outstanding (10_state.md R36, R38). -/
def bsReq (s : State) : Bool := s.inFlight.any InFlight.byteRequest

/-- `tbl_req` with `tbl_addr`: the table read outstanding (10_state.md R36, R38). -/
def tblReq (s : State) : Option Addr := s.inFlight.bind InFlight.tableRead

end Sys2Proof.Machine
end

