-- ==== Sys2Proof/Machine/HostSteps.lean ====
section
/-! DEFINITION. The steps of a run: a command word executed by the decoder core (spec 60_exceptions.md R166) and the host's own
steps (70_reset_and_hazards.md R190, R194, R195, R204), while `BUSY = 0` and while `BUSY = 1`. -/

namespace Sys2Proof.Machine

/-- `Execute(w)`: an illegal word is reported, first in priority; a legal one is dispatched (60_exceptions.md R166). -/
def executeWord (w : Word) (s : State) : Host.Outcome State Fault Refusal :=
  match decodeWord w with
  | .illegal _ => .next (raiseIllegal s)
  | .legal i => exec i s

/-- The host positions the byte source; the count of bytes taken starts again (70_reset_and_hazards.md R194; log 17). -/
def setStream (bytes : List Byte) (s : State) : State := { s with stream := bytes, fetched := 0 }

/-- The host writes a table entry (70_reset_and_hazards.md R195). -/
def writeTable (a : Addr) (v : Word) (s : State) : State := { s with table := tblWrite s.table a v }

/-- The command in flight is a `DECICDF` whose window holds the address (20_memory.md R52, R62). -/
def runningWindow (w : Word) (a : Addr) : Bool :=
  match decodeWord w with
  | .legal (.decicdf tbase nsym) => inWindow tbase nsym a
  | .legal .init => false
  | .legal (.declogp _) => false
  | .legal (.lutrd _) => false
  | .illegal _ => false

/-- The command has been accepted and has taken `n` bytes; no register has changed (log 7). -/
def acceptCommand (w : Word) (n : Nat) (s : State) : State :=
  { s with
    inFlight := some { command := w, delivered := s.stream.take n, byteRequest := false, tableRead := none }
    stream := s.stream.drop n
    fetched := s.fetched + n }

/-- Reset asserted while a command runs: the command is abandoned, and the bytes it had taken stay consumed; they are at most
those it takes when it completes (70_reset_and_hazards.md R190, R191; log 14). A command that has no step has none here. -/
def resetDuring (w : Word) (n : Nat) (s : State) : Host.Outcome State Fault Refusal :=
  match executeWord w s with
  | .next t => .next (applyReset (acceptCommand w (min n (t.fetched - s.fetched)) s))
  | .fault r => .fault r
  | .refused r => .refused r

/-- A host step taken while `BUSY = 0`; a command is accepted and executed in one step (00_scope.md R8). -/
def idleStep (h : HostStep) (s : State) : Host.Outcome State Fault Refusal :=
  match h with
  | .command w => executeWord w s
  | .setStream bytes => .next (setStream bytes s)
  | .writeTable a v => .next (writeTable a v s)
  | .readReg a => .next (readPort a s)
  | .reset => .next (applyReset s)
  | .resetDuring w n => resetDuring w n s

/-- The state in which the command in flight was accepted: before the bytes delivered to it left the stream (log 7). -/
def beforeCommand (f : InFlight) (s : State) : State :=
  { s with inFlight := none, stream := f.delivered ++ s.stream, fetched := s.fetched - f.delivered.length }

/-- The command in flight runs to its completion, and `BUSY` returns to 0 (20_memory.md R63). -/
def completeInFlight (f : InFlight) (s : State) : Host.Outcome State Fault Refusal :=
  executeWord f.command (beforeCommand f s)

/-- A step taken while `BUSY = 1` (log 7). A command the host presents is not accepted: it stays where it is until the one
in flight has completed (70_reset_and_hazards.md R199). The host's other steps are those of R35, R62, R190, R194, R195. -/
def busyStep (f : InFlight) (s : State) : Host.Outcome State Fault Refusal :=
  match s.host with
  | [] => completeInFlight f s
  | .command _ :: _ => completeInFlight f s
  | .resetDuring _ _ :: _ => completeInFlight f s
  | .setStream _ :: _ => .fault .streamChangedWhileBusy
  | .writeTable a v :: q =>
    if runningWindow f.command a then .fault .tableWriteInRunningWindow else .next (writeTable a v { s with host := q })
  | .readReg a :: q => .next (readPort a { s with host := q })
  | .reset :: q => .next (applyReset { s with host := q })

/-- One step of a run (70_reset_and_hazards.md R204). With no host step left the block is idle and holds every register
(60_exceptions.md R185). -/
def runStep (s : State) : Host.Outcome State Fault Refusal :=
  match s.inFlight with
  | some f => busyStep f s
  | none =>
    match s.host with
    | [] => .next s
    | h :: q => idleStep h { s with host := q }

/-- The host presents the word next, to a block that is not busy (log 1). -/
def presentWord (w : Word) (s : State) : State := { s with inFlight := none, host := .command w :: s.host }

end Sys2Proof.Machine
end

