-- ==== Sys2Proof/Machine/Step.lean ====
section
/-! DEFINITION. The step of the machine: one host step or one command (spec 00_scope.md R8, 70_reset_and_hazards.md R204). -/

namespace Sys2Proof.Machine

/-- One step. -/
def step (s : State) : Host.Outcome State Fault Refusal := runStep s

/-- `s` with the word as the next command the host presents. The block fetches no instructions (10_state.md R22): its
program is the sequence of commands the host issues, so this stands for that host's choice (log 1). -/
def State.withFetchWord (s : State) (nbits w : Nat) : State := presentWord (tableWord nbits w) s

end Sys2Proof.Machine
end

