-- ==== Sys2Proof/Machine/Platform.lean ====
section
/-! DEFINITION. A platform of `N_INST` decoder cores (spec 00_scope.md R7, 60_exceptions.md R180): each core's registers,
ports, byte source and host are private to it, and the renormalization_lut, a constant, is all they share. -/

namespace Sys2Proof.Machine

/-- The cores of a platform; `N_INST` is their number. Table memory that cores share (60_exceptions.md R181) is held once
per core (log 15). -/
structure Platform where
  cores : List State
deriving DecidableEq, Repr

/-- `N_INST >= 1` (00_scope.md R7). -/
def Platform.wf (p : Platform) : Bool := decide (1 ≤ p.cores.length)

/-- The cores start together at reset, each in `UNINIT` (60_exceptions.md R180). -/
def Platform.reset (nInst : Nat) : Platform := { cores := List.replicate nInst State.reset }

/-- A reset that reaches every core. DESIGN CHOICE (log 22): the spec does not say whether a reset asserted after the start
reaches one core or all of them, so the model has both, this one and the host steps `reset` and `resetDuring` of one core. -/
def Platform.resetAll (p : Platform) : Platform := { cores := p.cores.map applyReset }

/-- Core `k` takes a step; a number that is no core's takes none. A reset among its host's steps reaches that core alone (DESIGN
CHOICE, log 22), and so does a write to table memory (DESIGN CHOICE, log 15). -/
def Platform.stepCore (k : Nat) (p : Platform) : Host.Outcome Platform Fault Refusal :=
  match p.cores[k]? with
  | none => .next p
  | some s =>
    match step s with
    | .next s1 => .next { cores := p.cores.set k s1 }
    | .fault r => .fault r
    | .refused r => .refused r

end Sys2Proof.Machine
end

