-- ==== Sys2Proof/Machine/Run.lean ====
section
/-! DEFINITION. A run and its observation (spec 70_reset_and_hazards.md R204). -/

namespace Sys2Proof.Machine

/-- The register-port values after one completed command (70_reset_and_hazards.md R204). A value that 60_exceptions.md R163
leaves unspecified is not part of the observation: `none`. -/
structure Observation where
  status : Word
  result : Word
  rng : Option Word
  val : Option Word
  cur : Option Word
deriving DecidableEq, Repr

/-- What an observation shows of a register of the coder: nothing in `EXHAUSTED`, which is entered by a failure of 60_exceptions.md
R163 alone and left when `INIT` or reset writes these registers. -/
def determinedRead (a : BitVec 3) (s : State) : Option Word :=
  match s.state with
  | .exhausted => none
  | .uninit => some (readIdle a s)
  | .constructed => some (readIdle a s)
  | .decoding => some (readIdle a s)

/-- The observation of a state in which a command has just completed, so that `BUSY = 0` (70_reset_and_hazards.md R204). -/
def observe (s : State) : Observation where
  status := readIdle 0 s
  result := readIdle 1 s
  rng := determinedRead 2 s
  val := determinedRead 3 s
  cur := determinedRead 4 s

/-- The host step issues a command that completes. -/
def HostStep.completes : HostStep → Bool
  | .command _ => true
  | .setStream _ => false
  | .writeTable _ _ => false
  | .readReg _ => false
  | .reset => false
  | .resetDuring _ _ => false

/-- The host step issues a command: one that completes, or one that reset abandons. -/
def HostStep.issues : HostStep → Bool
  | .command _ => true
  | .setStream _ => false
  | .writeTable _ _ => false
  | .readReg _ => false
  | .reset => false
  | .resetDuring _ _ => true

/-- The run has ended: `BUSY = 0` and the host has no further command (70_reset_and_hazards.md R204). -/
def runEnded (s : State) : Bool := !s.busy && !s.host.any HostStep.issues

/-- The next step completes a command: the one in flight, or the one the host presents. -/
def completesNext (s : State) : Bool :=
  match s.inFlight, s.host with
  | none, [] => false
  | none, h :: _ => h.completes
  | some _, [] => true
  | some _, h :: _ => h.issues

/-- A run's observation: the sequence after each completed command, and the bytes taken from the byte source
(70_reset_and_hazards.md R204). -/
structure RunObservation where
  ports : List Observation
  taken : Nat
deriving DecidableEq, Repr

/-- A run that has ended: its last state and its observation. -/
structure RunEnd where
  last : State
  seen : RunObservation
deriving DecidableEq, Repr

/-- The observation with one more completed command before it. -/
def RunEnd.after (o : Observation) (r : RunEnd) : RunEnd :=
  { r with seen := { r.seen with ports := o :: r.seen.ports } }

/-- The run from a state until it has ended, `fuel` steps at most. The bytes taken are counted from the last time the stream was set
(95_test_vectors.md section 0; log 17). -/
def runSteps : Nat → State → Host.Outcome RunEnd Fault Refusal
  | 0, s => .next { last := s, seen := { ports := [], taken := s.fetched } }
  | fuel + 1, s =>
    if runEnded s then .next { last := s, seen := { ports := [], taken := s.fetched } }
    else
      match step s with
      | .fault r => .fault r
      | .refused r => .refused r
      | .next t =>
        match runSteps fuel t with
        | .fault r => .fault r
        | .refused r => .refused r
        | .next e => .next (if completesNext s then e.after (observe t) else e)

/-- The run from a state: each step but the one that completes a command in flight takes a host step, so this fuel never runs
out before the run has ended. -/
def run (s : State) : Host.Outcome RunEnd Fault Refusal := runSteps (s.host.length + 1) s

/-- A run of the model starts at reset, with the host's steps to come (70_reset_and_hazards.md R204). -/
def runFromReset (steps : List HostStep) : Host.Outcome RunEnd Fault Refusal := run { State.reset with host := steps }

end Sys2Proof.Machine
end

