-- ==== Sys2Proof/Safety.lean ====
section
/-! DEFINITION. What a safe run keeps, and the terms the statements use: the invariants of the spec (10_state.md R29, R39;
43_normalize_bits.md R143), legality as the spec words it (30_encoding.md R79), a well-formed table as a proposition
(42_symbol_decode.md R121), the stream as a string of bits (20_memory.md R55), and renormalization in closed form
(43_normalize_bits.md R147, R148, R150). None of them is used by the machine. -/

namespace Sys2Proof.Machine

/-! ## Invariants -/

/-- `STATE ∈ {CONSTRUCTED, DECODING}`: a decoder lifetime is active. -/
abbrev Live (s : State) : Prop := s.state = .constructed ∨ s.state = .decoding

/-- `2^23 < RNG <= 2^31` and `VAL < RNG` (10_state.md R39). -/
abbrev RangeOk (s : State) : Prop :=
  2 ^ 23 < s.rng.toNat ∧ s.rng.toNat ≤ 2 ^ 31 ∧ s.val.toNat < s.rng.toNat

/-- `CCNT = 7`: one bit of `CBYTE` is unread between commands (43_normalize_bits.md R143). -/
abbrev CursorOk (s : State) : Prop := s.ccnt = 7

/-- The coder of an active lifetime is in range (10_state.md R39, 43_normalize_bits.md R143). -/
abbrev CoderOk (s : State) : Prop := Live s → RangeOk s ∧ CursorOk s

/-- Which `STATE` an `ERR` goes with: the pairs of 95_test_vectors.md section 0. -/
abbrev StatusOk (s : State) : Prop :=
  (s.err = .exhausted → s.state = .exhausted) ∧ (s.err = .notReady → s.state = .uninit)

/-- What every step keeps. -/
abbrev Inv (s : State) : Prop := CoderOk s ∧ StatusOk s ∧ TableMem.wf s.table = true

/-- `BUSY = 0` (10_state.md R29). -/
abbrev Idle (s : State) : Prop := s.inFlight = none

/-- A state of a safe run. -/
abbrev Safe (s : State) : Prop := Inv s ∧ Idle s

/-! ## Legality and tables, as the spec words them -/

/-- `Legal(w)` over the numbers of the word's fields (30_encoding.md R79). -/
def legalWord (w : Word) : Bool :=
  match w.toNat / 2 ^ 28 with
  | 1 => decide (w.toNat % 2 ^ 28 = 0)
  | 2 => decide (w.toNat % 2 ^ 28 / 2 ^ 5 = 0) && decide (w.toNat % 2 ^ 5 ≤ 23)
  | 3 => decide (w.toNat % 2 ^ 28 / 2 ^ 24 = 0) && decide (1 ≤ w.toNat % 2 ^ 8)
      && decide (w.toNat % 2 ^ 24 / 2 ^ 8 + w.toNat % 2 ^ 8 ≤ 0xFFFF)
  | 4 => decide (w.toNat % 2 ^ 28 / 2 ^ 8 = 0)
  | _ => false

/-- A well-formed table (42_symbol_decode.md R121). -/
structure TableOk (e : Entries) (nsym : Nat) : Prop where
  ft_pos : 1 ≤ e 0
  ft_max : e 0 ≤ 65536
  rising : ∀ j, 1 ≤ j → j < nsym → e j ≤ e (j + 1)
  last : e nsym = e 0
  one_symbol : 1 ≤ nsym

/-! ## The stream as bits -/

/-- The bits of a byte, most significant first (20_memory.md R55). -/
def byteBits (b : Byte) : List Nat := (List.range 8).map fun i => b.toNat / 2 ^ (7 - i) % 2

/-- The bits not yet consumed: those left in the cursor, then those of the stream (43_normalize_bits.md R140). -/
def unreadBits (s : State) : List Nat := (byteBits s.cbyte).drop s.ccnt.val ++ s.stream.flatMap byteBits

/-- A bit string as a big-endian number (20_memory.md R55). -/
def bitsToNat (l : List Nat) : Nat := l.foldl (fun r b => r * 2 + b) 0

/-- The next `n` bits as a number. -/
def nextBits (n : Nat) (s : State) : Nat := bitsToNat ((unreadBits s).take n)

/-! ## Renormalization in closed form -/

/-- How many steps renormalization runs, from a range of at least 1 (43_normalize_bits.md R150). -/
def normSteps (rng : Nat) : Nat :=
  if 2 ^ 23 < rng then 0 else if 2 ^ 15 < rng then 1 else if 2 ^ 7 < rng then 2 else 3

/-- The source and the cursor after `n` more bytes have gone through a cursor with one unread bit
(43_normalize_bits.md R143). -/
def takeBytes (n : Nat) (s : State) : State :=
  { s with
    cbyte := ((s.cbyte :: s.stream).drop n).headD 0
    stream := s.stream.drop n
    fetched := s.fetched + n }

/-- `n` steps of renormalization at once: `RNG` times 256^n, and `VAL` with the complement of the next `8n` bits below it
(43_normalize_bits.md R148). -/
def normalizedBy (n : Nat) (s : State) : State :=
  loadCoder (s.rng.toNat * 256 ^ n) (s.val.toNat * 256 ^ n + (256 ^ n - 1 - nextBits (8 * n) s)) (takeBytes n s)

/-- The source at end-of-data, with every byte it had delivered (60_exceptions.md R163). -/
def drained (s : State) : State := { s with stream := [], fetched := s.fetched + s.stream.length }

/-- `t` is `s` after a command that ran out of input: the stream is drained, `STATE` and `ERR` are `EXHAUSTED`, `RESULT` is
unchanged, and nothing is said of the coder registers, which hold any value (60_exceptions.md R163). -/
def ExhaustedFrom (s t : State) : Prop :=
  t = { s with
    rng := t.rng, val := t.val, cbyte := t.cbyte, ccnt := t.ccnt, draws := t.draws
    state := .exhausted, err := .exhausted
    stream := [], fetched := s.fetched + s.stream.length }

/-- The outcome with its next state, if there is one, changed by `f`. -/
def mapNext (f : State → State) : Host.Outcome State Fault Refusal → Host.Outcome State Fault Refusal
  | .next t => .next (f t)
  | .fault r => .fault r
  | .refused r => .refused r

/-- The state without what is not determined in `EXHAUSTED`: the coder registers, which hold any value there (60_exceptions.md R163),
and the model's counter of free values. 0 stands for all of them. -/
def determined (s : State) : State :=
  if s.state = .exhausted then { s with rng := 0, val := 0, cbyte := 0, ccnt := 0, draws := 0 } else s

/-- The two states differ in nothing but what no rule determines: the free values of log 4 and log 8 and their counter. -/
def SameButFreeValues (s s' : State) : Prop :=
  s' = { s with
    rng := s'.rng, val := s'.val, cbyte := s'.cbyte, ccnt := s'.ccnt, regRdata := s'.regRdata, draws := s'.draws } ∧
  (s.state ≠ .exhausted → s'.rng = s.rng ∧ s'.val = s.val ∧ s'.cbyte = s.cbyte ∧ s'.ccnt = s.ccnt)

/-- What a run shows (70_reset_and_hazards.md R204), or why it has no end in the model. -/
def seenOf : Host.Outcome RunEnd Fault Refusal → Host.Outcome RunObservation Fault Refusal
  | .next e => .next e.seen
  | .fault r => .fault r
  | .refused r => .refused r

/-! ## What `DECICDF` decodes, as the spec words it -/

/-- `fs` for a table with total `ft` (42_symbol_decode.md R122). -/
def icdfPosition (ft : Nat) (s : State) : Nat := ft - min (s.val.toNat / (s.rng.toNat / ft) + 1) ft

/-- Symbol `k` of the table holds the position: `fl(k) <= fs < fh(k)` (42_symbol_decode.md R128). -/
def SymbolHolds (e : Entries) (nsym fs k : Nat) : Prop := k < nsym ∧ lowBound e k ≤ fs ∧ fs < highBound e k

/-- `RNG` after the update for symbol `k`, before renormalization (42_symbol_decode.md R126). -/
def icdfRange (e : Entries) (k : Nat) (s : State) : Nat :=
  if 0 < lowBound e k then s.rng.toNat / e 0 * (highBound e k - lowBound e k)
  else s.rng.toNat - s.rng.toNat / e 0 * (e 0 - highBound e k)

/-- `VAL` after the update for symbol `k`, before renormalization (42_symbol_decode.md R125). -/
def icdfValue (e : Entries) (k : Nat) (s : State) : Nat :=
  s.val.toNat - s.rng.toNat / e 0 * (e 0 - highBound e k)

end Sys2Proof.Machine
end

