-- ==== Sys2Proof/Certificates/Slice0/Obligations.lean ====
section
/-! DEFINITION. The statements about the model, each from the numbered rules of spec/ its docstring names. A statement
about a value the spec leaves open holds for every value of it. -/

open Sys2Proof Sys2Proof.Machine

/-! ## Encoding and decoding -/

/-- 30_encoding.md R73 to R78: no bit of a legal command's word is dropped. -/
def Obligations.DecodeOfEncodeIsTheInstruction : Prop :=
  ∀ i : Instr, i.WellFormed → decodeWord (encode i) = .legal i

/-- 30_encoding.md R73 to R78: a word has one meaning, and its operands are in their legal ranges. -/
def Obligations.DecodedWordIsWellFormedAndEncodesBack : Prop :=
  ∀ (w : Word) (i : Instr), decodeWord w = .legal i → i.WellFormed ∧ encode i = w

/-- 30_encoding.md R79: the words that decode are those of `Legal(w)`, worded over the numbers of the fields. -/
def Obligations.WordDecodesExactlyWhenLegal : Prop :=
  ∀ w : Word, (∃ i, decodeWord w = .legal i) ↔ legalWord w = true

/-- 30_encoding.md R83: the worked encodings, both ways, and the illegal words. -/
def Obligations.WorkedEncodingsDecode : Prop :=
  (decodeWord 0x10000000 = .legal .init ∧ encode .init = 0x10000000) ∧
  (decodeWord 0x20000001 = .legal (.declogp 1) ∧ encode (.declogp 1) = 0x20000001) ∧
  (decodeWord 0x2000000F = .legal (.declogp 15) ∧ encode (.declogp 15) = 0x2000000F) ∧
  (decodeWord 0x20000017 = .legal (.declogp 23) ∧ encode (.declogp 23) = 0x20000017) ∧
  (decodeWord 0x30000002 = .legal (.decicdf 0 2) ∧ encode (.decicdf 0 2) = 0x30000002) ∧
  (decodeWord 0x30001008 = .legal (.decicdf 0x10 8) ∧ encode (.decicdf 0x10 8) = 0x30001008) ∧
  (decodeWord 0x30FF00FF = .legal (.decicdf 0xFF00 255) ∧ encode (.decicdf 0xFF00 255) = 0x30FF00FF) ∧
  (decodeWord 0x30FF01FF = .illegal .windowWraps ∧ encode (.decicdf 0xFF01 255) = 0x30FF01FF) ∧
  (decodeWord 0x40000000 = .legal (.lutrd 0) ∧ encode (.lutrd 0) = 0x40000000) ∧
  (decodeWord 0x400000FF = .legal (.lutrd 255) ∧ encode (.lutrd 255) = 0x400000FF) ∧
  decodeWord 0x00000000 = .illegal .reservedOpcode ∧ decodeWord 0x10000001 = .illegal .reservedBits ∧
  decodeWord 0x20000018 = .illegal .logpRange ∧ decodeWord 0x30000100 = .illegal .noSymbols ∧
  decodeWord 0x50000000 = .illegal .reservedOpcode

/-! ## The step -/

/-- 60_exceptions.md R166, 00_scope.md R8: with `BUSY = 0`, a step at which the host presents a word that decodes is that
command at the state without that host step, and `withFetchWord` makes the very next step such a one. -/
def Obligations.StepRunsTheDecodedCommand : Prop :=
  (∀ (s : State) (w : Word) (q : List HostStep) (i : Instr), Idle s → s.host = .command w :: q →
    decodeWord w = .legal i → step s = exec i { s with host := q }) ∧
  (∀ (s : State) (i : Instr), i.WellFormed →
    step (s.withFetchWord 32 (encode i).toNat) = exec i { s with inFlight := none })

/-- 60_exceptions.md R162: an illegal word changes `ERR` alone, in every `STATE`. -/
def Obligations.IllegalWordChangesErrAlone : Prop :=
  ∀ (s : State) (w : Word) (q : List HostStep), Idle s → s.host = .command w :: q → legalWord w = false →
    step s = .next { s with host := q, err := .illegal }

/-- 10_state.md R40, 70_reset_and_hazards.md R190, R191: reset at any time, a command in flight or not, and the state after
it. `stream` and `fetched` of a state with a command in flight are those after the bytes delivered to it (the model's representation,
log 7), so they stay consumed. That `regRdata` is kept is the model's choice (log 11), and `draws` is the model's own (log 4). The
fields of `State.reset` that R40 does not name are the model's choice (log 1, log 2, log 3, log 4, log 11), and their values are not
stated here. -/
def Obligations.ResetSetsTheRegistersAndNothingOutside : Prop :=
  (∀ (s : State) (q : List HostStep), s.host = .reset :: q →
    ∃ t, step s = .next t ∧ bsReq t = false ∧ tblReq t = none ∧ t.busy = false ∧
      t = { s with
        rng := 0, val := 0, cbyte := 0, ccnt := 8, state := .uninit, err := .ok, result := 0
        inFlight := none, host := q }) ∧
  State.reset.rng = 0 ∧ State.reset.val = 0 ∧ State.reset.cbyte = 0 ∧ State.reset.ccnt = 8 ∧
  State.reset.state = .uninit ∧ State.reset.err = .ok ∧ State.reset.busy = false ∧ State.reset.result = 0

/-- 60_exceptions.md R185: with no host step left the block is idle and holds every register. -/
def Obligations.IdleBlockHoldsItsState : Prop :=
  ∀ s : State, Idle s → s.host = [] → step s = .next s

/-! ## The renormalization_lut -/

/-- 40_lut.md R101: the shift is the smallest one, and it counts leading zeros. -/
def Obligations.LutShiftIsTheSmallestShift : Prop :=
  ∀ i : Byte,
    (i ≠ 0 → 128 ≤ i.toNat * 2 ^ (lutShift i).toNat ∧
      ∀ k : Nat, k < (lutShift i).toNat → i.toNat * 2 ^ k < 128) ∧
    (lutShift 0).toNat = 8 ∧ (lutShift i).toNat = i.clz.toNat

/-- 40_lut.md R104: the full contents, by ranges of the index. -/
def Obligations.LutContentsByRange : Prop :=
  ∀ i : Byte,
    (i.toNat = 0 → lutShift i = 8 ∧ lutAdd i = 0xFF) ∧
    (i.toNat = 1 → lutShift i = 7 ∧ lutAdd i = 0x7F) ∧
    (2 ≤ i.toNat ∧ i.toNat ≤ 3 → lutShift i = 6 ∧ lutAdd i = 0x3F) ∧
    (4 ≤ i.toNat ∧ i.toNat ≤ 7 → lutShift i = 5 ∧ lutAdd i = 0x1F) ∧
    (8 ≤ i.toNat ∧ i.toNat ≤ 15 → lutShift i = 4 ∧ lutAdd i = 0x0F) ∧
    (16 ≤ i.toNat ∧ i.toNat ≤ 31 → lutShift i = 3 ∧ lutAdd i = 0x07) ∧
    (32 ≤ i.toNat ∧ i.toNat ≤ 63 → lutShift i = 2 ∧ lutAdd i = 0x03) ∧
    (64 ≤ i.toNat ∧ i.toNat ≤ 127 → lutShift i = 1 ∧ lutAdd i = 0x01) ∧
    (128 ≤ i.toNat → lutShift i = 0 ∧ lutAdd i = 0x00)

/-- 40_lut.md R106: `LUTRD` completes in every state, writes `RESULT` and `ERR`, and nothing else. -/
def Obligations.LutrdReadsOneEntry : Prop :=
  ∀ (idx : Byte) (s : State),
    exec (.lutrd idx) s = .next { s with
      result := BitVec.ofNat 32 ((lutAdd idx).toNat * 2 ^ 8 + (lutShift idx).toNat), err := .ok }

/-- 40_lut.md R107: the worked values of `LUTRD`, in every state. -/
def Obligations.LutrdWorkedValues : Prop :=
  ∀ s : State,
    exec (.lutrd 0) s = .next { s with result := 0x0000FF08, err := .ok } ∧
    exec (.lutrd 1) s = .next { s with result := 0x00007F07, err := .ok } ∧
    exec (.lutrd 2) s = .next { s with result := 0x00003F06, err := .ok } ∧
    exec (.lutrd 3) s = .next { s with result := 0x00003F06, err := .ok } ∧
    exec (.lutrd 4) s = .next { s with result := 0x00001F05, err := .ok } ∧
    exec (.lutrd 15) s = .next { s with result := 0x00000F04, err := .ok } ∧
    exec (.lutrd 16) s = .next { s with result := 0x00000703, err := .ok } ∧
    exec (.lutrd 63) s = .next { s with result := 0x00000302, err := .ok } ∧
    exec (.lutrd 64) s = .next { s with result := 0x00000101, err := .ok } ∧
    exec (.lutrd 127) s = .next { s with result := 0x00000101, err := .ok } ∧
    exec (.lutrd 128) s = .next { s with result := 0x00000000, err := .ok } ∧
    exec (.lutrd 255) s = .next { s with result := 0x00000000, err := .ok }

/-! ## Registers as the host reads them -/

/-- 10_state.md R33: the layout of `STATUS`, with the codes of R27 and R28, each fixed here. -/
def Obligations.StatusLayout : Prop :=
  (Lifecycle.code .uninit = 0 ∧ Lifecycle.code .constructed = 1 ∧ Lifecycle.code .decoding = 2 ∧
    Lifecycle.code .exhausted = 3) ∧
  (ErrCode.code .ok = 0 ∧ ErrCode.code .exhausted = 1 ∧ ErrCode.code .illegal = 2 ∧ ErrCode.code .notReady = 3) ∧
  ∀ s : State,
    (statusWord s).extractLsb' 0 2 = s.state.code ∧ (statusWord s).extractLsb' 2 1 = BitVec.ofBool s.busy ∧
    (statusWord s).extractLsb' 3 1 = 0 ∧ (statusWord s).extractLsb' 4 4 = s.err.code ∧
    (statusWord s).extractLsb' 8 24 = 0

/-- 10_state.md R34: the layout of `CUR`. -/
def Obligations.CurLayout : Prop :=
  ∀ s : State,
    (curWord s).extractLsb' 0 8 = s.cbyte ∧ ((curWord s).extractLsb' 8 4).toNat = s.ccnt.val ∧
    (curWord s).extractLsb' 12 20 = 0

/-- 10_state.md R32: the register map, read while `BUSY = 0`, with no side effect on the block. -/
def Obligations.RegisterReadsAnswerTheMap : Prop :=
  ∀ (s : State) (a : BitVec 3) (q : List HostStep), Idle s → s.host = .readReg a :: q →
    ∃ v : Word, step s = .next { s with host := q, regRdata := v } ∧
      (a = 0 → v = statusWord s) ∧ (a = 1 → v = s.result) ∧ (a = 2 → v = s.rng) ∧ (a = 3 → v = s.val) ∧
      (a = 4 → v = curWord s) ∧ (a = 5 ∨ a = 6 ∨ a = 7 → v = 0)

/-- 10_state.md R35: while `BUSY = 1` a read changes nothing of the block and `STATUS` is valid; of the other registers nothing is
said, because they read as any value. -/
def Obligations.ReadsWhileBusyKeepTheBlock : Prop :=
  ∀ (s : State) (f : InFlight) (a : BitVec 3) (q : List HostStep), s.inFlight = some f → s.host = .readReg a :: q →
    ∃ t, step s = .next t ∧ t = { s with host := q, regRdata := t.regRdata, draws := t.draws } ∧
      (a = 0 → t.regRdata = statusWord s ∧ t.regRdata.extractLsb' 2 1 = 1)

/-! ## Raw bits and renormalization -/

/-- 20_memory.md R55, 43_normalize_bits.md R141, R142: `ReadBits(n)` is the next `n` unread bits as a big-endian number; it takes
the fewest bytes those bits need; and it raises `Exhausted`, with the stream drained, exactly when there are fewer. -/
def Obligations.ReadBitsTakesTheNextBits : Prop :=
  ∀ (n : Nat) (s : State),
    (n ≤ (unreadBits s).length → ∃ t, readBits n s = .ok (nextBits n s) t ∧ unreadBits t = (unreadBits s).drop n ∧
      t = { s with
        cbyte := t.cbyte, ccnt := t.ccnt
        stream := s.stream.drop ((n + s.ccnt.val - 1) / 8), fetched := s.fetched + (n + s.ccnt.val - 1) / 8 }) ∧
    ((unreadBits s).length < n → ∃ t, readBits n s = .exhausted t ∧
      t = { s with cbyte := t.cbyte, ccnt := t.ccnt, stream := [], fetched := s.fetched + s.stream.length })

/-- 43_normalize_bits.md R143: a chunk through a cursor with one unread bit. -/
def Obligations.ChunkStraddlesTwoBytes : Prop :=
  ∀ (s : State) (b : Byte) (rest : List Byte), CursorOk s → s.stream = b :: rest →
    readBits 8 s = .ok (s.cbyte.toNat % 2 * 2 ^ 7 + b.toNat / 2)
      { s with cbyte := b, ccnt := 7, stream := rest, fetched := s.fetched + 1 }

/-- 43_normalize_bits.md R145, R148: `Normalize` is the spec's loop in every state, each pass with the pair (8, 0xFF). -/
def Obligations.NormalizeIsTheLoop : Prop :=
  ∀ s : State, normalize s =
    if s.rng.toNat ≤ 2 ^ 23 then
      match readBits 8 { s with rng := BitVec.ofNat 32 (s.rng.toNat * 2 ^ 8) } with
      | .exhausted t => .exhausted t
      | .ok c t => normalize { t with val := BitVec.ofNat 32 ((t.val.toNat * 2 ^ 8 + (255 - c)) % 2 ^ 31) }
    else .ok () s

/-- 43_normalize_bits.md R147, R148, R150: from `1 <= RNG <= 2^31`, `VAL < RNG` and one unread bit, `Normalize` is its 0 to 3 steps
at once and leaves the coder in range, or it raises `Exhausted` with the stream drained, when there are fewer bytes than steps. -/
def Obligations.NormalizeInClosedForm : Prop :=
  ∀ s : State, 1 ≤ s.rng.toNat → s.rng.toNat ≤ 2 ^ 31 → s.val.toNat < s.rng.toNat → CursorOk s →
    (normSteps s.rng.toNat ≤ s.stream.length →
      normalize s = .ok () (normalizedBy (normSteps s.rng.toNat) s) ∧
      RangeOk (normalizedBy (normSteps s.rng.toNat) s) ∧ CursorOk (normalizedBy (normSteps s.rng.toNat) s)) ∧
    (s.stream.length < normSteps s.rng.toNat → ∃ t, normalize s = .exhausted t ∧ t.stream = [] ∧
      t.fetched = s.fetched + s.stream.length)

/-- 43_normalize_bits.md R147: with `RNG = 0` the loop consumes the stream until end-of-data and raises `Exhausted`. -/
def Obligations.NormalizeFromZeroDrainsTheStream : Prop :=
  ∀ s : State, s.rng = 0 → ∃ t, normalize s = .exhausted t ∧ t.stream = [] ∧
    t.fetched = s.fetched + s.stream.length

/-! ## INIT -/

/-- 41_lifecycle_init.md R114: on a stream of four bytes or more `INIT` completes, from every state; all it writes. -/
def Obligations.InitOnFourBytes : Prop :=
  ∀ (s : State) (b0 b1 b2 b3 : Byte) (rest : List Byte), s.stream = b0 :: b1 :: b2 :: b3 :: rest →
    bitsToNat ((s.stream.flatMap byteBits).take 31) =
      (b0.toNat * 2 ^ 24 + b1.toNat * 2 ^ 16 + b2.toNat * 2 ^ 8 + b3.toNat) / 2 ∧
    exec .init s = .next { s with
      rng := 0x80000000
      val := BitVec.ofNat 32 (0x7FFFFFFF - bitsToNat ((s.stream.flatMap byteBits).take 31))
      cbyte := b3, ccnt := 7, state := .constructed, err := .ok, stream := rest, fetched := s.fetched + 4 }

/-- 41_lifecycle_init.md R115, 60_exceptions.md R163: `INIT` fails exactly when fewer than 4 bytes remain. -/
def Obligations.InitRunsOutBelowFourBytes : Prop :=
  ∀ s : State, s.stream.length < 4 → ∃ t, exec .init s = .next t ∧ ExhaustedFrom s t

/-- 41_lifecycle_init.md R110, R112: no state carries from one lifetime to the next. Where `INIT` runs out of input, the coder
registers are not compared, since R163 leaves them undetermined. -/
def Obligations.InitForgetsThePreviousLifetime : Prop :=
  ∀ (s : State) (r v : Word) (cb : Byte) (cc : Fin 9) (st : Lifecycle) (e : ErrCode),
    mapNext determined (exec .init { s with rng := r, val := v, cbyte := cb, ccnt := cc, state := st, err := e }) =
      mapNext determined (exec .init s)

/-! ## DECLOGP -/

/-- 42_symbol_decode.md R133, R134: `DECLOGP` in an active lifetime completes when the stream holds the bytes its renormalization
needs (43_normalize_bits.md R150); all it writes. -/
def Obligations.DeclogpDecodesABit : Prop :=
  ∀ (logp : BitVec 5) (s : State), logpLegal logp → Live s → RangeOk s → CursorOk s →
    let scale := s.rng.toNat / 2 ^ logp.toNat
    let u : State :=
      if scale ≤ s.val.toNat then
        { s with rng := BitVec.ofNat 32 (s.rng.toNat - scale), val := BitVec.ofNat 32 (s.val.toNat - scale) }
      else { s with rng := BitVec.ofNat 32 scale }
    normSteps u.rng.toNat ≤ s.stream.length →
      exec (.declogp logp) s = .next { normalizedBy (normSteps u.rng.toNat) u with
        result := if s.val.toNat < scale then 1 else 0, state := .decoding, err := .ok }

/-- 60_exceptions.md R163, 43_normalize_bits.md R149: `DECLOGP` with fewer bytes than its renormalization needs. -/
def Obligations.DeclogpRunsOut : Prop :=
  ∀ (logp : BitVec 5) (s : State), logpLegal logp → Live s → RangeOk s → CursorOk s →
    let scale := s.rng.toNat / 2 ^ logp.toNat
    s.stream.length < normSteps (if scale ≤ s.val.toNat then s.rng.toNat - scale else scale) →
      ∃ t, exec (.declogp logp) s = .next t ∧ ExhaustedFrom s t

/-- 42_symbol_decode.md R137: with `logp = 0` the bit is always 1, `RNG` and `VAL` are unchanged and no byte is read. -/
def Obligations.DeclogpZeroAlwaysOne : Prop :=
  ∀ s : State, Live s → RangeOk s →
    exec (.declogp 0) s = .next { s with result := 1, state := .decoding, err := .ok }

/-! ## DECICDF -/

/-- 42_symbol_decode.md R123: what `Search` returns, and that the fallback is never taken for a well-formed table and a position
below its total. -/
def Obligations.SearchReturnsTheFirstAbove : Prop :=
  ∀ (e : Entries) (nsym fs : Nat), 1 ≤ nsym →
    ((∃ j, j < nsym ∧ fs < e (j + 1)) →
      search e nsym fs < nsym ∧ fs < e (search e nsym fs + 1) ∧ ∀ j, j < search e nsym fs → e (j + 1) ≤ fs) ∧
    ((∀ j, j < nsym → e (j + 1) ≤ fs) → search e nsym fs = nsym - 1) ∧
    (TableOk e nsym → fs < e 0 → ∃ j, j < nsym ∧ fs < e (j + 1))

/-- 42_symbol_decode.md R121: the check `DECICDF` makes of its table is the spec's well-formedness. -/
def Obligations.TableCheckIsWellFormedness : Prop :=
  ∀ (e : Entries) (nsym : Nat), tableWellFormed e nsym = true ↔ TableOk e nsym

/-- 42_symbol_decode.md R128 (a) to (f): the arithmetic of a decode against a well-formed table, in a state that meets
10_state.md R39. -/
def Obligations.WellFormedTableDecodesInRange : Prop :=
  ∀ (e : Entries) (nsym : Nat) (s : State), TableOk e nsym → RangeOk s →
    ∃ k, SymbolHolds e nsym (icdfPosition (e 0) s) k ∧
      search e nsym (icdfPosition (e 0) s) = k ∧ lowBound e k < highBound e k ∧
      128 ≤ s.rng.toNat / e 0 ∧
      s.rng.toNat / e 0 * (e 0 - highBound e k) ≤ s.val.toNat ∧
      icdfValue e k s < icdfRange e k s ∧
      s.rng.toNat / e 0 ≤ icdfRange e k s ∧ icdfRange e k s ≤ s.rng.toNat ∧
      s.rng.toNat / e 0 * e 0 ≤ s.rng.toNat ∧ highBound e k ≤ e 0 ∧
      (lowBound e k = 0 → s.rng.toNat / e 0 * (e 0 - highBound e k) ≤ s.rng.toNat)

/-- 42_symbol_decode.md R122 to R127: `DECICDF` in an active lifetime, against a well-formed table, completes when the stream
holds the bytes its renormalization needs; the symbol is the one that holds the position `fs`; all it writes. -/
def Obligations.DecicdfDecodesASymbol : Prop :=
  ∀ (tbase : Addr) (nsym : BitVec 8) (s : State), nsymLegal nsym → windowLegal tbase nsym → Live s → RangeOk s →
    CursorOk s → TableOk (entries s.table tbase) nsym.toNat →
    let e := entries s.table tbase
    ∃ k, SymbolHolds e nsym.toNat (icdfPosition (e 0) s) k ∧
      (normSteps (icdfRange e k s) ≤ s.stream.length →
        exec (.decicdf tbase nsym) s = .next
          { normalizedBy (normSteps (icdfRange e k s))
              { s with rng := BitVec.ofNat 32 (icdfRange e k s), val := BitVec.ofNat 32 (icdfValue e k s) } with
            result := BitVec.ofNat 32 k, state := .decoding, err := .ok })

/-- 60_exceptions.md R163, 43_normalize_bits.md R149: `DECICDF` with fewer bytes than its renormalization needs. -/
def Obligations.DecicdfRunsOut : Prop :=
  ∀ (tbase : Addr) (nsym : BitVec 8) (s : State) (k : Nat), nsymLegal nsym → windowLegal tbase nsym → Live s →
    RangeOk s → CursorOk s → TableOk (entries s.table tbase) nsym.toNat →
    let e := entries s.table tbase
    SymbolHolds e nsym.toNat (icdfPosition (e 0) s) k → s.stream.length < normSteps (icdfRange e k s) →
      ∃ t, exec (.decicdf tbase nsym) s = .next t ∧ ExhaustedFrom s t

/-- 42_symbol_decode.md R129: a legal `DECICDF` in an active lifetime is refused by the name `MALFORMED_TABLE` exactly when its
table is not well-formed; whatever the coder holds, it answers a next state otherwise. -/
def Obligations.DecicdfRefusesExactlyMalformedTables : Prop :=
  ∀ (tbase : Addr) (nsym : BitVec 8) (s : State), nsymLegal nsym → windowLegal tbase nsym → Live s →
    (¬ TableOk (entries s.table tbase) nsym.toNat → exec (.decicdf tbase nsym) s = .refused .malformedTable) ∧
    (TableOk (entries s.table tbase) nsym.toNat → ∃ t, exec (.decicdf tbase nsym) s = .next t)

/-- 20_memory.md R52: a `DECICDF` depends on no table entry outside its window, and outside an active lifetime on none at
all. In `EXHAUSTED` the coder registers are not compared, since R163 leaves them undetermined. -/
def Obligations.DecicdfReadsOnlyItsWindow : Prop :=
  ∀ (tbase : Addr) (nsym : BitVec 8) (s : State) (m : TableMem),
    (∀ a : Addr, inWindow tbase nsym a = true → Live s → tblRead m a = tblRead s.table a) →
    mapNext determined (exec (.decicdf tbase nsym) { s with table := m }) =
      mapNext (fun t => determined { t with table := m }) (exec (.decicdf tbase nsym) s)

/-- 42_symbol_decode.md R130: against a table of one symbol `[ft, ft]`, `RNG` and `VAL` are unchanged, no byte is read and
`RESULT = 0`. -/
def Obligations.OneSymbolTableChangesNothing : Prop :=
  ∀ (tbase : Addr) (s : State), windowLegal tbase 1 → Live s → RangeOk s →
    1 ≤ (tblRead s.table tbase).toNat → (tblRead s.table tbase).toNat ≤ 65536 →
    tblRead s.table (tbase + 1) = tblRead s.table tbase →
    exec (.decicdf tbase 1) s = .next { s with result := 0, state := .decoding, err := .ok }

/-! ## The lifecycle -/

/-- 60_exceptions.md R164: a decode command in `UNINIT` changes `ERR` alone. -/
def Obligations.DecodeBeforeInitIsNotReady : Prop :=
  ∀ s : State, s.state = .uninit →
    (∀ logp, logpLegal logp → exec (.declogp logp) s = .next { s with err := .notReady }) ∧
    (∀ tbase nsym, nsymLegal nsym → windowLegal tbase nsym →
      exec (.decicdf tbase nsym) s = .next { s with err := .notReady })

/-- 60_exceptions.md R165: a decode command in `EXHAUSTED` changes `ERR` alone. -/
def Obligations.DecodeAfterExhaustionReportsIt : Prop :=
  ∀ s : State, s.state = .exhausted →
    (∀ logp, logpLegal logp → exec (.declogp logp) s = .next { s with err := .exhausted }) ∧
    (∀ tbase nsym, nsymLegal nsym → windowLegal tbase nsym →
      exec (.decicdf tbase nsym) s = .next { s with err := .exhausted })

/-- 41_lifecycle_init.md R116: the next `STATE` and the `ERR` written, for every command and every `STATE` before. An instruction
whose operands are out of range reports `ILLEGAL`, as its word does: R116 speaks of the word, and the term is the model's reading
(log 16). -/
def Obligations.StateTransitions : Prop :=
  ∀ (i : Instr) (s t : State), exec i s = .next t →
    match i with
    | .init =>
      (4 ≤ s.stream.length → t.state = .constructed ∧ t.err = .ok) ∧
      (s.stream.length < 4 → t.state = .exhausted ∧ t.err = .exhausted)
    | .lutrd _ => t.state = s.state ∧ t.err = .ok
    | .declogp _ | .decicdf _ _ =>
      (¬ i.WellFormed → t.state = s.state ∧ t.err = .illegal) ∧
      (i.WellFormed → s.state = .uninit → t.state = .uninit ∧ t.err = .notReady) ∧
      (i.WellFormed → s.state = .exhausted → t.state = .exhausted ∧ t.err = .exhausted) ∧
      (i.WellFormed → Live s → (t.state = .decoding ∧ t.err = .ok) ∨
        (t.state = .exhausted ∧ t.err = .exhausted ∧ t.stream = []))

/-- 41_lifecycle_init.md R117: every command behaves the same in `CONSTRUCTED` and in `DECODING`. Where a command runs out of
input, the coder registers are not compared, since 60_exceptions.md R163 leaves them undetermined. -/
def Obligations.ConstructedAndDecodingBehaveAlike : Prop :=
  ∀ (i : Instr) (s : State), i.WellFormed →
    match i with
    | .lutrd _ => exec i { s with state := .decoding } =
        mapNext (fun t => { t with state := .decoding }) (exec i { s with state := .constructed })
    | .init | .declogp _ | .decicdf _ _ =>
      mapNext determined (exec i { s with state := .decoding }) =
        mapNext determined (exec i { s with state := .constructed })

/-! ## Frames -/

/-- 20_memory.md R50, 10_state.md R30, R41: no command writes table memory or touches the host; `INIT` and every command that
fails leave `RESULT` unchanged. The last clause, on the counter of free values, is about the model's own field (log 4). -/
def Obligations.CommandsLeaveTheRestAlone : Prop :=
  ∀ (i : Instr) (s t : State), exec i s = .next t →
    t = { s with
      rng := t.rng, val := t.val, cbyte := t.cbyte, ccnt := t.ccnt, state := t.state, err := t.err
      result := t.result, stream := t.stream, fetched := t.fetched, draws := t.draws } ∧
    (∀ a : Addr, tblRead t.table a = tblRead s.table a) ∧
    (i = .init ∨ t.err ≠ .ok → t.result = s.result) ∧
    (t.state ≠ .exhausted → t.draws = s.draws)

/-- 60_exceptions.md R171: `ILLEGAL`, `NOT_READY` and `EXHAUSTED` in state `EXHAUSTED` are precise. -/
def Obligations.PreciseFailuresChangeErrAlone : Prop :=
  ∀ (i : Instr) (s t : State), exec i s = .next t →
    t.err = .illegal ∨ t.err = .notReady ∨ (t.err = .exhausted ∧ s.state = .exhausted ∧ i ≠ .init) →
    t = { s with err := t.err }

/-- 20_memory.md R53, R61, 70_reset_and_hazards.md R203: a command takes bytes from the front of the stream, each once: `INIT` at
most 4, a decode at most 3 from a coder in range, `LUTRD` none. -/
def Obligations.ByteRequestsAreInOrderAndBounded : Prop :=
  ∀ (i : Instr) (s t : State), exec i s = .next t →
    ∃ n, n ≤ s.stream.length ∧ t.stream = s.stream.drop n ∧ t.fetched = s.fetched + n ∧
      (CoderOk s → match i with
        | .init => n ≤ 4
        | .declogp _ | .decicdf _ _ => n ≤ 3
        | .lutrd _ => n = 0)

/-! ## Invariants and runs -/

/-- 10_state.md R39, R40: the invariant holds at reset. -/
def Obligations.InvariantHoldsAtReset : Prop := Inv State.reset ∧ Idle State.reset

/-- 10_state.md R39, 43_normalize_bits.md R143, 41_lifecycle_init.md R116, 60_exceptions.md R162 to R165: from every state that meets
the invariant, a step of any kind gives one that meets it: `2^23 < RNG <= 2^31`, `VAL < RNG` (R39) and `CCNT = 7` (R143) in an active
lifetime, `ERR` with its `STATE` (R116), and table memory in canonical form, which is the model's representation (log 12). -/
def Obligations.EveryStepKeepsTheInvariant : Prop :=
  ∀ s t : State, Inv s → step s = .next t → Inv t

/-- 10_state.md R29: at the transaction level `BUSY` is 0 in every state between steps. -/
def Obligations.EveryStepKeepsBusyZero : Prop :=
  ∀ s t : State, Idle s → step s = .next t → Idle t ∧ t.busy = false ∧ cmdReady t = true

/-- 60_exceptions.md R160, R168, 42_symbol_decode.md R129: with `BUSY = 0` nothing stops a run but a `DECICDF` that runs on a
malformed table. -/
def Obligations.OnlyMalformedTablesStopARun : Prop :=
  ∀ s : State, Idle s →
    (∃ t, step s = .next t) ∨
    (step s = .refused .malformedTable ∧ ∃ w q tbase nsym,
      (s.host = .command w :: q ∨ ∃ n, s.host = .resetDuring w n :: q) ∧
      decodeWord w = .legal (.decicdf tbase nsym) ∧ Live s ∧ ¬ TableOk (entries s.table tbase) nsym.toNat)

/-- 10_state.md R37: a command's results depend on the coder, the stream and the table alone; after an exhaustion failure only
`ERR`, `STATE` and `RESULT` are determined. -/
def Obligations.SameInputsSameResults : Prop :=
  ∀ (i : Instr) (s s' t : State), s'.rng = s.rng → s'.val = s.val → s'.cbyte = s.cbyte → s'.ccnt = s.ccnt →
    s'.state = s.state → s'.result = s.result → s'.stream = s.stream →
    (∀ a : Addr, tblRead s'.table a = tblRead s.table a) → exec i s = .next t →
    ∃ t', exec i s' = .next t' ∧ t'.result = t.result ∧ t'.err = t.err ∧ t'.state = t.state ∧ t'.stream = t.stream ∧
      (t.state ≠ .exhausted → t'.rng = t.rng ∧ t'.val = t.val ∧ t'.cbyte = t.cbyte ∧ t'.ccnt = t.ccnt)

/-! ## The host's steps -/

/-- 70_reset_and_hazards.md R194, R195, 20_memory.md R62: the host sets the stream and writes a table entry while `BUSY = 0`; nothing
else changes, and the entry is read by every later command. That the count of bytes taken starts again is log 17. The
canonical form that a write keeps is the model's representation (log 12). -/
def Obligations.HostStepsWhileIdle : Prop :=
  (∀ (s : State) (bytes : List Byte) (q : List HostStep), Idle s → s.host = .setStream bytes :: q →
    step s = .next { s with host := q, stream := bytes, fetched := 0 }) ∧
  (∀ (s : State) (a : Addr) (v : Word) (q : List HostStep), Idle s → s.host = .writeTable a v :: q →
    ∃ m, step s = .next { s with host := q, table := m } ∧
      (TableMem.wf s.table = true → TableMem.wf m = true ∧
        ∀ b : Addr, tblRead m b = if b = a then v else tblRead s.table b))

/-- 70_reset_and_hazards.md R194, R195, R199, 20_memory.md R62: the host's steps while `BUSY = 1`, but for the register reads and the
reset of the statements above. A write to the window of the `DECICDF` in flight is stuck, a write outside it is done, and so is
any write while another word is in flight; a command presented is held (R199). That a change of the stream is stuck is the model's
choice (log 9). So is what the step then does (log 7): the word in flight runs from the registers as they are and from the stream before
the bytes delivered to it. -/
def Obligations.HostStepsWhileBusy : Prop :=
  ∀ (s : State) (f : InFlight) (q : List HostStep), s.inFlight = some f →
    (∀ tbase nsym a v, decodeWord f.command = .legal (.decicdf tbase nsym) → s.host = .writeTable a v :: q →
      (tbase.toNat ≤ a.toNat ∧ a.toNat ≤ tbase.toNat + nsym.toNat →
        step s = .fault .tableWriteInRunningWindow) ∧
      (a.toNat < tbase.toNat ∨ tbase.toNat + nsym.toNat < a.toNat →
        step s = .next { s with host := q, table := tblWrite s.table a v })) ∧
    (∀ a v, (∀ tbase nsym, decodeWord f.command ≠ .legal (.decicdf tbase nsym)) → s.host = .writeTable a v :: q →
      step s = .next { s with host := q, table := tblWrite s.table a v }) ∧
    (∀ bytes, s.host = .setStream bytes :: q → step s = .fault .streamChangedWhileBusy) ∧
    ((s.host = [] ∨ (∃ w, s.host = .command w :: q) ∨ ∃ w n, s.host = .resetDuring w n :: q) →
      let u : State :=
        { s with inFlight := none, stream := f.delivered ++ s.stream, fetched := s.fetched - f.delivered.length }
      (∀ i, decodeWord f.command = .legal i → step s = exec i u) ∧
      (legalWord f.command = false → step s = .next { u with err := .illegal }))

/-- 20_memory.md R51: a read after a write gives what was written, and every other entry is as before. That the canonical form is kept
is about the model's representation (log 12). -/
def Obligations.TableReadAfterWrite : Prop :=
  ∀ (m : TableMem) (a b : Addr) (v : Word), TableMem.wf m = true →
    TableMem.wf (tblWrite m a v) = true ∧ tblRead (tblWrite m a v) b = if b = a then v else tblRead m b

/-- Of the model's representation of the table memory of 20_memory.md R51 (log 12): two lists in canonical form that read the same
everywhere are the same data. -/
def Obligations.EqualTablesAreEqualLists : Prop :=
  ∀ m m' : TableMem, TableMem.wf m = true → TableMem.wf m' = true →
    (∀ a : Addr, tblRead m a = tblRead m' a) → m = m'

/-- 60_exceptions.md R180: a command of one core never changes another core's state, and the cores start in `UNINIT`. A host's write to
table memory, which cores may share (R181), is left out (log 15). That a reset among one core's host steps reaches that core alone, and
that `resetAll` reaches every core, is the model's choice (log 22). -/
def Obligations.CoresAreIsolated : Prop :=
  (∀ (p p' : Platform) (k : Nat) (s : State), p.cores[k]? = some s → (∀ a v q, s.host ≠ .writeTable a v :: q) →
    Platform.stepCore k p = .next p' →
    p'.cores.length = p.cores.length ∧ (∀ j, j ≠ k → p'.cores[j]? = p.cores[j]?) ∧
    ∃ t, step s = .next t ∧ p'.cores[k]? = some t) ∧
  (∀ (p : Platform) (k : Nat), (Platform.resetAll p).cores[k]? = p.cores[k]?.map fun s =>
    { s with
      rng := 0, val := 0, cbyte := 0, ccnt := 8, state := .uninit, err := .ok, result := 0, inFlight := none }) ∧
  (∀ n, 1 ≤ n → (Platform.reset n).wf = true ∧ (Platform.reset n).cores.length = n ∧
    ∀ s ∈ (Platform.reset n).cores, s.state = .uninit ∧ Idle s)

/-! ## Reset inside a command, and runs -/

/-- 70_reset_and_hazards.md R190, R191: reset asserted while a command runs. Its effects on the registers are lost, and the bytes it
had taken stay consumed: `n` of them, or all it takes if those are fewer (log 14). -/
def Obligations.ResetDuringACommandKeepsItsBytesConsumed : Prop :=
  ∀ (s t : State) (w : Word) (n : Nat) (q : List HostStep), Idle s → s.host = .resetDuring w n :: q →
    executeWord w { s with host := q } = .next t →
    ∃ k, k = min n (s.stream.length - t.stream.length) ∧
      step s = .next { s with
        rng := 0, val := 0, cbyte := 0, ccnt := 8, state := .uninit, err := .ok, result := 0
        stream := s.stream.drop k, fetched := s.fetched + k, host := q }

/-- 70_reset_and_hazards.md R204: what an observation shows of a state in which a command has completed. -/
def Obligations.ObservationShowsWhatIsDetermined : Prop :=
  ∀ s : State,
    (observe s).status = statusWord s ∧ (observe s).result = s.result ∧
    (s.state ≠ .exhausted →
      (observe s).rng = some s.rng ∧ (observe s).val = some s.val ∧ (observe s).cur = some (curWord s)) ∧
    (s.state = .exhausted → (observe s).rng = none ∧ (observe s).val = none ∧ (observe s).cur = none)

/-- 70_reset_and_hazards.md R204: a run goes on until the host has issued its last command and that command has completed, and shows one
observation for each completed command; it has no end only where a `DECICDF` meets a malformed table (42_symbol_decode.md R129). That
the bytes taken are counted from the last time the stream was set is log 17. -/
def Obligations.RunEndsAfterItsLastCommand : Prop :=
  ∀ s : State, Idle s →
    (∃ e, run s = .next e ∧ Idle e.last ∧ (∀ h ∈ e.last.host, h.issues = false) ∧
      e.seen.ports.length = (s.host.filter HostStep.completes).length ∧ e.seen.taken = e.last.fetched) ∨
    run s = .refused .malformedTable

/-- 70_reset_and_hazards.md R204, 10_state.md R37: what a run shows depends on no value that the spec leaves open. -/
def Obligations.RunShowsNoFreeValue : Prop :=
  ∀ s s' : State, Idle s → SameButFreeValues s s' → seenOf (run s') = seenOf (run s)
end

