-- ==== Sys2Proof/Laws/Bits.lean ====
section
/-! SUPPORT. Raw bit extraction: what `refill` and `readBits` can do, said once, over the unread bits of the stream. -/

namespace Sys2Proof.Machine

theorem length_byteBits (b : Byte) : (byteBits b).length = 8 := by simp [byteBits]

theorem length_flatMap_byteBits (l : List Byte) : (l.flatMap byteBits).length = 8 * l.length := by
  induction l with
  | nil => rfl
  | cons b l ih => simp [List.flatMap_cons, length_byteBits, ih]; omega

/-- The bit the cursor takes next is the head of the cursor's unread bits. -/
theorem byteBits_drop (b : Byte) (c : Nat) (h : c < 8) :
    (byteBits b).drop c = b.toNat / 2 ^ (7 - c) % 2 :: (byteBits b).drop (c + 1) := by
  have hlen : c < (byteBits b).length := by rw [length_byteBits]; exact h
  rw [List.drop_eq_getElem_cons hlen]
  simp [byteBits]

theorem byteBits_drop_eight (b : Byte) : (byteBits b).drop 8 = [] := by
  rw [List.drop_eq_nil_iff, length_byteBits]

/-- The number of unread bits. -/
theorem length_unreadBits (s : State) : (unreadBits s).length = 8 - s.ccnt.val + 8 * s.stream.length := by
  rw [unreadBits, List.length_append, List.length_drop, length_byteBits, length_flatMap_byteBits]

/-- A state changed in the cursor and the byte source alone. -/
def SameButSource (s s' : State) : Prop :=
  s' = { s with cbyte := s'.cbyte, ccnt := s'.ccnt, stream := s'.stream, fetched := s'.fetched }

theorem SameButSource.refl (s : State) : SameButSource s s := rfl

theorem SameButSource.trans {s s' s'' : State} (h : SameButSource s s') (h' : SameButSource s' s'') :
    SameButSource s s'' := by
  unfold SameButSource at *
  rw [h', h]

/-- All `refill` can do: it fails at end-of-data with an empty cursor; else the cursor is not empty, the unread bits are the
same, and a byte was taken if the cursor was empty. -/
theorem refill_cases (s : State) :
    (refill s = none ∧ s.ccnt = 8 ∧ s.stream = []) ∨
    ∃ s1, refill s = some s1 ∧ s1.ccnt.val < 8 ∧ unreadBits s1 = unreadBits s ∧ SameButSource s s1 ∧
      ((s1 = s ∧ s.ccnt.val < 8) ∨ (s.ccnt = 8 ∧ s1.ccnt = 0 ∧ s1.fetched = s.fetched + 1 ∧
        ∃ b, s.stream = b :: s1.stream ∧ s1.cbyte = b)) := by
  by_cases hc : s.ccnt = 8
  · cases hs : s.stream with
    | nil => exact .inl ⟨by simp [refill, hc, fetchByte, hs], hc, rfl⟩
    | cons b rest =>
      refine .inr ⟨{ s with stream := rest, fetched := s.fetched + 1, cbyte := b, ccnt := 0 }, ?_, ?_, ?_, rfl,
        .inr ⟨hc, rfl, rfl, b, rfl, rfl⟩⟩
      · simp [refill, hc, fetchByte, hs]
      · exact Nat.zero_lt_succ 7
      · simp [unreadBits, hc, hs, byteBits_drop_eight]
  · have hlt : s.ccnt.val < 8 := by
      have h1 := s.ccnt.isLt
      have h2 : s.ccnt.val ≠ 8 := fun h => hc (Fin.ext h)
      omega
    exact .inr ⟨s, by simp [refill, hc], hlt, rfl, rfl, .inl ⟨rfl, hlt⟩⟩

/-- The cursor after a bit is taken. -/
theorem advance_val (s : State) (h : s.ccnt.val < 8) : (s.ccnt + 1).val = s.ccnt.val + 1 := by
  rw [Fin.val_add]
  have : (1 : Fin 9).val = 1 := rfl
  omega

theorem unreadBits_cons (s : State) (h : s.ccnt.val < 8) :
    unreadBits s = cursorBit s :: unreadBits { s with ccnt := s.ccnt + 1 } := by
  simp only [unreadBits, advance_val s h, byteBits_drop s.cbyte s.ccnt.val h, cursorBit, List.cons_append]

/-- All `readBitsInto` can do. -/
theorem readBitsInto_spec (n r : Nat) (s : State) :
    (n ≤ (unreadBits s).length ∧ ∃ s', readBitsInto n r s =
        .ok (((unreadBits s).take n).foldl (fun r b => r * 2 + b) r) s' ∧
      unreadBits s' = (unreadBits s).drop n ∧ SameButSource s s' ∧
      s'.fetched = s.fetched + (n + s.ccnt.val - 1) / 8 ∧
      s'.stream = s.stream.drop ((n + s.ccnt.val - 1) / 8) ∧
      s'.ccnt.val = if n = 0 then s.ccnt.val else (n + s.ccnt.val - 1) % 8 + 1) ∨
    ((unreadBits s).length < n ∧ ∃ s', readBitsInto n r s = .exhausted s' ∧ s'.stream = [] ∧
      s'.fetched = s.fetched + s.stream.length ∧ SameButSource s s') := by
  induction n generalizing r s with
  | zero =>
    have h0 : (0 + s.ccnt.val - 1) / 8 = 0 := by have := s.ccnt.isLt; omega
    exact .inl ⟨Nat.zero_le _, s, rfl, rfl, rfl, by rw [h0]; rfl, by rw [h0]; rfl, rfl⟩
  | succ n ih =>
    rcases refill_cases s with ⟨hr, hc, hs⟩ | ⟨s1, hr, hlt, hu, hsame, hcase⟩
    · right
      refine ⟨?_, s, ?_, hs, by simp [hs], rfl⟩
      · rw [length_unreadBits, hc, hs]
        simp
      · simp [readBitsInto, hr]
    · have hrec : readBitsInto (n + 1) r s =
          readBitsInto n (r * 2 + cursorBit s1) { s1 with ccnt := s1.ccnt + 1 } := by
        simp [readBitsInto, hr]
      have hcons := unreadBits_cons s1 hlt
      rw [hu] at hcons
      have hadv := advance_val s1 hlt
      have hsame2 : SameButSource s { s1 with ccnt := s1.ccnt + 1 } := hsame.trans rfl
      -- where the cursor and the source stand when the bit has been taken
      have hwhere : s1.fetched + (n + (s1.ccnt.val + 1) - 1) / 8 = s.fetched + (n + 1 + s.ccnt.val - 1) / 8 ∧
          s1.stream.drop ((n + (s1.ccnt.val + 1) - 1) / 8) = s.stream.drop ((n + 1 + s.ccnt.val - 1) / 8) ∧
          (n + (s1.ccnt.val + 1) - 1) % 8 = (n + 1 + s.ccnt.val - 1) % 8 ∧
          s1.fetched + s1.stream.length = s.fetched + s.stream.length ∧
          (n = 0 → s1.ccnt.val + 1 = (n + 1 + s.ccnt.val - 1) % 8 + 1) := by
        rcases hcase with ⟨rfl, hlt'⟩ | ⟨hc, h0, hf, b, hb, -⟩
        · have hsum : n + (s1.ccnt.val + 1) - 1 = n + 1 + s1.ccnt.val - 1 := by omega
          exact ⟨by rw [hsum], by rw [hsum], by rw [hsum], rfl, fun h => by omega⟩
        · have h8 : s.ccnt.val = 8 := by rw [hc]; rfl
          have h0' : s1.ccnt.val = 0 := by rw [h0]; rfl
          have hd : (n + 1 + s.ccnt.val - 1) / 8 = (n + (s1.ccnt.val + 1) - 1) / 8 + 1 := by omega
          refine ⟨by omega, by rw [hd, hb, List.drop_succ_cons], by omega, by rw [hb, hf]; simp; omega, fun h => by omega⟩
      obtain ⟨w1, w2, w3, w4, w5⟩ := hwhere
      rcases ih (r * 2 + cursorBit s1) { s1 with ccnt := s1.ccnt + 1 } with
        ⟨hn, s', he, hub, hsb, hf, hst, hcc⟩ | ⟨hn, s', he, hst, hf, hsb⟩
      · left
        simp only [hadv] at hf hst hcc
        refine ⟨by rw [hcons]; simpa using hn, s', ?_, ?_, hsame2.trans hsb, hf.trans w1, hst.trans w2, ?_⟩
        · rw [hrec, he, hcons, List.take_succ_cons, List.foldl_cons]
        · rw [hub, hcons, List.drop_succ_cons]
        · rw [if_neg (Nat.succ_ne_zero n), hcc]
          split
          · next h0 => exact w5 h0
          · rw [w3]
      · right
        refine ⟨by rw [hcons]; simpa using hn, s', ?_, hst, ?_, hsame2.trans hsb⟩
        · rw [hrec, he]
        · rw [hf]; exact w4

/-- A chunk of 8 bits through a cursor with one unread bit: that bit, then the top 7 bits of the next byte
(43_normalize_bits.md R143). -/
theorem readBits_chunk (s : State) (b : Byte) (rest : List Byte) (hc : s.ccnt = 7) (hs : s.stream = b :: rest) :
    readBits 8 s = .ok (s.cbyte.toNat % 2 * 128 + b.toNat / 2)
      { s with cbyte := b, stream := rest, fetched := s.fetched + 1 } := by
  obtain ⟨rng, val, cbyte, ccnt, state, err, result, inFlight, stream, fetched, table, regRdata, host, draws⟩ := s
  simp only at hc hs
  subst hc hs
  have hb := b.isLt
  simp [readBits, readBitsInto, refill, fetchByte, cursorBit]
  omega

/-- With one unread bit and no byte left, a chunk cannot be read. -/
theorem readBits_chunk_empty (s : State) (hc : s.ccnt = 7) (hs : s.stream = []) :
    ∃ t, readBits 8 s = .exhausted t ∧ t.stream = [] ∧ t.fetched = s.fetched ∧ SameButSource s t := by
  rcases readBitsInto_spec 8 0 s with ⟨hn, -⟩ | ⟨-, t, he, h1, h2, h3⟩
  · rw [length_unreadBits, hc, hs] at hn
    simp at hn
  · exact ⟨t, he, h1, by simpa [hs] using h2, h3⟩

/-- The 7 bits initialization reads, through an empty cursor. -/
theorem readBits_seven (s : State) (b : Byte) (rest : List Byte) (hc : s.ccnt = 8) (hs : s.stream = b :: rest) :
    readBits 7 s = .ok (b.toNat / 2) { s with cbyte := b, ccnt := 7, stream := rest, fetched := s.fetched + 1 } := by
  obtain ⟨rng, val, cbyte, ccnt, state, err, result, inFlight, stream, fetched, table, regRdata, host, draws⟩ := s
  simp only at hc hs
  subst hc hs
  have hb := b.isLt
  simp [readBits, readBitsInto, refill, fetchByte, cursorBit]
  omega

end Sys2Proof.Machine
end

