-- ==== Sys2Proof/Laws/State.lean ====
section
/-! SUPPORT. The fields of every named update of State: one lemma per field per update. -/

namespace Sys2Proof.Machine

variable (s : State)

/-! ### `raiseIllegal` -/

@[simp] theorem raiseIllegal_rng : (raiseIllegal s).rng = s.rng := rfl
@[simp] theorem raiseIllegal_val : (raiseIllegal s).val = s.val := rfl
@[simp] theorem raiseIllegal_cbyte : (raiseIllegal s).cbyte = s.cbyte := rfl
@[simp] theorem raiseIllegal_ccnt : (raiseIllegal s).ccnt = s.ccnt := rfl
@[simp] theorem raiseIllegal_state : (raiseIllegal s).state = s.state := rfl
@[simp] theorem raiseIllegal_err : (raiseIllegal s).err = .illegal := rfl
@[simp] theorem raiseIllegal_result : (raiseIllegal s).result = s.result := rfl
@[simp] theorem raiseIllegal_inFlight : (raiseIllegal s).inFlight = s.inFlight := rfl
@[simp] theorem raiseIllegal_stream : (raiseIllegal s).stream = s.stream := rfl
@[simp] theorem raiseIllegal_fetched : (raiseIllegal s).fetched = s.fetched := rfl
@[simp] theorem raiseIllegal_table : (raiseIllegal s).table = s.table := rfl
@[simp] theorem raiseIllegal_regRdata : (raiseIllegal s).regRdata = s.regRdata := rfl
@[simp] theorem raiseIllegal_host : (raiseIllegal s).host = s.host := rfl
@[simp] theorem raiseIllegal_draws : (raiseIllegal s).draws = s.draws := rfl

/-! ### `raiseNotReady` -/

@[simp] theorem raiseNotReady_rng : (raiseNotReady s).rng = s.rng := rfl
@[simp] theorem raiseNotReady_val : (raiseNotReady s).val = s.val := rfl
@[simp] theorem raiseNotReady_cbyte : (raiseNotReady s).cbyte = s.cbyte := rfl
@[simp] theorem raiseNotReady_ccnt : (raiseNotReady s).ccnt = s.ccnt := rfl
@[simp] theorem raiseNotReady_state : (raiseNotReady s).state = s.state := rfl
@[simp] theorem raiseNotReady_err : (raiseNotReady s).err = .notReady := rfl
@[simp] theorem raiseNotReady_result : (raiseNotReady s).result = s.result := rfl
@[simp] theorem raiseNotReady_inFlight : (raiseNotReady s).inFlight = s.inFlight := rfl
@[simp] theorem raiseNotReady_stream : (raiseNotReady s).stream = s.stream := rfl
@[simp] theorem raiseNotReady_fetched : (raiseNotReady s).fetched = s.fetched := rfl
@[simp] theorem raiseNotReady_table : (raiseNotReady s).table = s.table := rfl
@[simp] theorem raiseNotReady_regRdata : (raiseNotReady s).regRdata = s.regRdata := rfl
@[simp] theorem raiseNotReady_host : (raiseNotReady s).host = s.host := rfl
@[simp] theorem raiseNotReady_draws : (raiseNotReady s).draws = s.draws := rfl

/-! ### `reportExhausted` -/

@[simp] theorem reportExhausted_rng : (reportExhausted s).rng = s.rng := rfl
@[simp] theorem reportExhausted_val : (reportExhausted s).val = s.val := rfl
@[simp] theorem reportExhausted_cbyte : (reportExhausted s).cbyte = s.cbyte := rfl
@[simp] theorem reportExhausted_ccnt : (reportExhausted s).ccnt = s.ccnt := rfl
@[simp] theorem reportExhausted_state : (reportExhausted s).state = s.state := rfl
@[simp] theorem reportExhausted_err : (reportExhausted s).err = .exhausted := rfl
@[simp] theorem reportExhausted_result : (reportExhausted s).result = s.result := rfl
@[simp] theorem reportExhausted_inFlight : (reportExhausted s).inFlight = s.inFlight := rfl
@[simp] theorem reportExhausted_stream : (reportExhausted s).stream = s.stream := rfl
@[simp] theorem reportExhausted_fetched : (reportExhausted s).fetched = s.fetched := rfl
@[simp] theorem reportExhausted_table : (reportExhausted s).table = s.table := rfl
@[simp] theorem reportExhausted_regRdata : (reportExhausted s).regRdata = s.regRdata := rfl
@[simp] theorem reportExhausted_host : (reportExhausted s).host = s.host := rfl
@[simp] theorem reportExhausted_draws : (reportExhausted s).draws = s.draws := rfl

/-! ### `raiseExhausted` -/

@[simp] theorem raiseExhausted_rng : (raiseExhausted s).rng = Config.freeRng s.draws := rfl
@[simp] theorem raiseExhausted_val : (raiseExhausted s).val = Config.freeVal s.draws := rfl
@[simp] theorem raiseExhausted_cbyte : (raiseExhausted s).cbyte = Config.freeCbyte s.draws := rfl
@[simp] theorem raiseExhausted_ccnt : (raiseExhausted s).ccnt = Config.freeCcnt s.draws := rfl
@[simp] theorem raiseExhausted_state : (raiseExhausted s).state = .exhausted := rfl
@[simp] theorem raiseExhausted_err : (raiseExhausted s).err = .exhausted := rfl
@[simp] theorem raiseExhausted_result : (raiseExhausted s).result = s.result := rfl
@[simp] theorem raiseExhausted_inFlight : (raiseExhausted s).inFlight = s.inFlight := rfl
@[simp] theorem raiseExhausted_stream : (raiseExhausted s).stream = s.stream := rfl
@[simp] theorem raiseExhausted_fetched : (raiseExhausted s).fetched = s.fetched := rfl
@[simp] theorem raiseExhausted_table : (raiseExhausted s).table = s.table := rfl
@[simp] theorem raiseExhausted_regRdata : (raiseExhausted s).regRdata = s.regRdata := rfl
@[simp] theorem raiseExhausted_host : (raiseExhausted s).host = s.host := rfl
@[simp] theorem raiseExhausted_draws : (raiseExhausted s).draws = s.draws + 1 := rfl

/-! ### `completeDecode` -/

@[simp] theorem completeDecode_rng (w : Word) : (completeDecode w s).rng = s.rng := rfl
@[simp] theorem completeDecode_val (w : Word) : (completeDecode w s).val = s.val := rfl
@[simp] theorem completeDecode_cbyte (w : Word) : (completeDecode w s).cbyte = s.cbyte := rfl
@[simp] theorem completeDecode_ccnt (w : Word) : (completeDecode w s).ccnt = s.ccnt := rfl
@[simp] theorem completeDecode_state (w : Word) : (completeDecode w s).state = .decoding := rfl
@[simp] theorem completeDecode_err (w : Word) : (completeDecode w s).err = .ok := rfl
@[simp] theorem completeDecode_result (w : Word) : (completeDecode w s).result = w := rfl
@[simp] theorem completeDecode_inFlight (w : Word) : (completeDecode w s).inFlight = s.inFlight := rfl
@[simp] theorem completeDecode_stream (w : Word) : (completeDecode w s).stream = s.stream := rfl
@[simp] theorem completeDecode_fetched (w : Word) : (completeDecode w s).fetched = s.fetched := rfl
@[simp] theorem completeDecode_table (w : Word) : (completeDecode w s).table = s.table := rfl
@[simp] theorem completeDecode_regRdata (w : Word) : (completeDecode w s).regRdata = s.regRdata := rfl
@[simp] theorem completeDecode_host (w : Word) : (completeDecode w s).host = s.host := rfl
@[simp] theorem completeDecode_draws (w : Word) : (completeDecode w s).draws = s.draws := rfl

/-! ### `completeInit` -/

@[simp] theorem completeInit_rng : (completeInit s).rng = s.rng := rfl
@[simp] theorem completeInit_val : (completeInit s).val = s.val := rfl
@[simp] theorem completeInit_cbyte : (completeInit s).cbyte = s.cbyte := rfl
@[simp] theorem completeInit_ccnt : (completeInit s).ccnt = s.ccnt := rfl
@[simp] theorem completeInit_state : (completeInit s).state = .constructed := rfl
@[simp] theorem completeInit_err : (completeInit s).err = .ok := rfl
@[simp] theorem completeInit_result : (completeInit s).result = s.result := rfl
@[simp] theorem completeInit_inFlight : (completeInit s).inFlight = s.inFlight := rfl
@[simp] theorem completeInit_stream : (completeInit s).stream = s.stream := rfl
@[simp] theorem completeInit_fetched : (completeInit s).fetched = s.fetched := rfl
@[simp] theorem completeInit_table : (completeInit s).table = s.table := rfl
@[simp] theorem completeInit_regRdata : (completeInit s).regRdata = s.regRdata := rfl
@[simp] theorem completeInit_host : (completeInit s).host = s.host := rfl
@[simp] theorem completeInit_draws : (completeInit s).draws = s.draws := rfl

/-! ### `completeLutrd` -/

@[simp] theorem completeLutrd_rng (w : Word) : (completeLutrd w s).rng = s.rng := rfl
@[simp] theorem completeLutrd_val (w : Word) : (completeLutrd w s).val = s.val := rfl
@[simp] theorem completeLutrd_cbyte (w : Word) : (completeLutrd w s).cbyte = s.cbyte := rfl
@[simp] theorem completeLutrd_ccnt (w : Word) : (completeLutrd w s).ccnt = s.ccnt := rfl
@[simp] theorem completeLutrd_state (w : Word) : (completeLutrd w s).state = s.state := rfl
@[simp] theorem completeLutrd_err (w : Word) : (completeLutrd w s).err = .ok := rfl
@[simp] theorem completeLutrd_result (w : Word) : (completeLutrd w s).result = w := rfl
@[simp] theorem completeLutrd_inFlight (w : Word) : (completeLutrd w s).inFlight = s.inFlight := rfl
@[simp] theorem completeLutrd_stream (w : Word) : (completeLutrd w s).stream = s.stream := rfl
@[simp] theorem completeLutrd_fetched (w : Word) : (completeLutrd w s).fetched = s.fetched := rfl
@[simp] theorem completeLutrd_table (w : Word) : (completeLutrd w s).table = s.table := rfl
@[simp] theorem completeLutrd_regRdata (w : Word) : (completeLutrd w s).regRdata = s.regRdata := rfl
@[simp] theorem completeLutrd_host (w : Word) : (completeLutrd w s).host = s.host := rfl
@[simp] theorem completeLutrd_draws (w : Word) : (completeLutrd w s).draws = s.draws := rfl

/-! ### `loadCoder` -/

@[simp] theorem loadCoder_rng (r v : Nat) : (loadCoder r v s).rng = BitVec.ofNat 32 r := rfl
@[simp] theorem loadCoder_val (r v : Nat) : (loadCoder r v s).val = BitVec.ofNat 32 v := rfl
@[simp] theorem loadCoder_cbyte (r v : Nat) : (loadCoder r v s).cbyte = s.cbyte := rfl
@[simp] theorem loadCoder_ccnt (r v : Nat) : (loadCoder r v s).ccnt = s.ccnt := rfl
@[simp] theorem loadCoder_state (r v : Nat) : (loadCoder r v s).state = s.state := rfl
@[simp] theorem loadCoder_err (r v : Nat) : (loadCoder r v s).err = s.err := rfl
@[simp] theorem loadCoder_result (r v : Nat) : (loadCoder r v s).result = s.result := rfl
@[simp] theorem loadCoder_inFlight (r v : Nat) : (loadCoder r v s).inFlight = s.inFlight := rfl
@[simp] theorem loadCoder_stream (r v : Nat) : (loadCoder r v s).stream = s.stream := rfl
@[simp] theorem loadCoder_fetched (r v : Nat) : (loadCoder r v s).fetched = s.fetched := rfl
@[simp] theorem loadCoder_table (r v : Nat) : (loadCoder r v s).table = s.table := rfl
@[simp] theorem loadCoder_regRdata (r v : Nat) : (loadCoder r v s).regRdata = s.regRdata := rfl
@[simp] theorem loadCoder_host (r v : Nat) : (loadCoder r v s).host = s.host := rfl
@[simp] theorem loadCoder_draws (r v : Nat) : (loadCoder r v s).draws = s.draws := rfl

/-! ### `emptyCursor` -/

@[simp] theorem emptyCursor_rng : (emptyCursor s).rng = s.rng := rfl
@[simp] theorem emptyCursor_val : (emptyCursor s).val = s.val := rfl
@[simp] theorem emptyCursor_cbyte : (emptyCursor s).cbyte = 0 := rfl
@[simp] theorem emptyCursor_ccnt : (emptyCursor s).ccnt = 8 := rfl
@[simp] theorem emptyCursor_state : (emptyCursor s).state = s.state := rfl
@[simp] theorem emptyCursor_err : (emptyCursor s).err = s.err := rfl
@[simp] theorem emptyCursor_result : (emptyCursor s).result = s.result := rfl
@[simp] theorem emptyCursor_inFlight : (emptyCursor s).inFlight = s.inFlight := rfl
@[simp] theorem emptyCursor_stream : (emptyCursor s).stream = s.stream := rfl
@[simp] theorem emptyCursor_fetched : (emptyCursor s).fetched = s.fetched := rfl
@[simp] theorem emptyCursor_table : (emptyCursor s).table = s.table := rfl
@[simp] theorem emptyCursor_regRdata : (emptyCursor s).regRdata = s.regRdata := rfl
@[simp] theorem emptyCursor_host : (emptyCursor s).host = s.host := rfl
@[simp] theorem emptyCursor_draws : (emptyCursor s).draws = s.draws := rfl

/-! ### `applyReset` -/

@[simp] theorem applyReset_rng : (applyReset s).rng = 0 := rfl
@[simp] theorem applyReset_val : (applyReset s).val = 0 := rfl
@[simp] theorem applyReset_cbyte : (applyReset s).cbyte = 0 := rfl
@[simp] theorem applyReset_ccnt : (applyReset s).ccnt = 8 := rfl
@[simp] theorem applyReset_state : (applyReset s).state = .uninit := rfl
@[simp] theorem applyReset_err : (applyReset s).err = .ok := rfl
@[simp] theorem applyReset_result : (applyReset s).result = 0 := rfl
@[simp] theorem applyReset_inFlight : (applyReset s).inFlight = none := rfl
@[simp] theorem applyReset_stream : (applyReset s).stream = s.stream := rfl
@[simp] theorem applyReset_fetched : (applyReset s).fetched = s.fetched := rfl
@[simp] theorem applyReset_table : (applyReset s).table = s.table := rfl
@[simp] theorem applyReset_regRdata : (applyReset s).regRdata = s.regRdata := rfl
@[simp] theorem applyReset_host : (applyReset s).host = s.host := rfl
@[simp] theorem applyReset_draws : (applyReset s).draws = s.draws := rfl

/-! ### `setStream` -/

@[simp] theorem setStream_rng (l : List Byte) : (setStream l s).rng = s.rng := rfl
@[simp] theorem setStream_val (l : List Byte) : (setStream l s).val = s.val := rfl
@[simp] theorem setStream_cbyte (l : List Byte) : (setStream l s).cbyte = s.cbyte := rfl
@[simp] theorem setStream_ccnt (l : List Byte) : (setStream l s).ccnt = s.ccnt := rfl
@[simp] theorem setStream_state (l : List Byte) : (setStream l s).state = s.state := rfl
@[simp] theorem setStream_err (l : List Byte) : (setStream l s).err = s.err := rfl
@[simp] theorem setStream_result (l : List Byte) : (setStream l s).result = s.result := rfl
@[simp] theorem setStream_inFlight (l : List Byte) : (setStream l s).inFlight = s.inFlight := rfl
@[simp] theorem setStream_stream (l : List Byte) : (setStream l s).stream = l := rfl
@[simp] theorem setStream_fetched (l : List Byte) : (setStream l s).fetched = 0 := rfl
@[simp] theorem setStream_table (l : List Byte) : (setStream l s).table = s.table := rfl
@[simp] theorem setStream_regRdata (l : List Byte) : (setStream l s).regRdata = s.regRdata := rfl
@[simp] theorem setStream_host (l : List Byte) : (setStream l s).host = s.host := rfl
@[simp] theorem setStream_draws (l : List Byte) : (setStream l s).draws = s.draws := rfl

/-! ### `writeTable` -/

@[simp] theorem writeTable_rng (a : Addr) (v : Word) : (writeTable a v s).rng = s.rng := rfl
@[simp] theorem writeTable_val (a : Addr) (v : Word) : (writeTable a v s).val = s.val := rfl
@[simp] theorem writeTable_cbyte (a : Addr) (v : Word) : (writeTable a v s).cbyte = s.cbyte := rfl
@[simp] theorem writeTable_ccnt (a : Addr) (v : Word) : (writeTable a v s).ccnt = s.ccnt := rfl
@[simp] theorem writeTable_state (a : Addr) (v : Word) : (writeTable a v s).state = s.state := rfl
@[simp] theorem writeTable_err (a : Addr) (v : Word) : (writeTable a v s).err = s.err := rfl
@[simp] theorem writeTable_result (a : Addr) (v : Word) : (writeTable a v s).result = s.result := rfl
@[simp] theorem writeTable_inFlight (a : Addr) (v : Word) : (writeTable a v s).inFlight = s.inFlight := rfl
@[simp] theorem writeTable_stream (a : Addr) (v : Word) : (writeTable a v s).stream = s.stream := rfl
@[simp] theorem writeTable_fetched (a : Addr) (v : Word) : (writeTable a v s).fetched = s.fetched := rfl
@[simp] theorem writeTable_table (a : Addr) (v : Word) : (writeTable a v s).table = tblWrite s.table a v := rfl
@[simp] theorem writeTable_regRdata (a : Addr) (v : Word) : (writeTable a v s).regRdata = s.regRdata := rfl
@[simp] theorem writeTable_host (a : Addr) (v : Word) : (writeTable a v s).host = s.host := rfl
@[simp] theorem writeTable_draws (a : Addr) (v : Word) : (writeTable a v s).draws = s.draws := rfl

/-! ### `acceptCommand` -/

@[simp] theorem acceptCommand_rng (w : Word) (n : Nat) : (acceptCommand w n s).rng = s.rng := rfl
@[simp] theorem acceptCommand_val (w : Word) (n : Nat) : (acceptCommand w n s).val = s.val := rfl
@[simp] theorem acceptCommand_cbyte (w : Word) (n : Nat) : (acceptCommand w n s).cbyte = s.cbyte := rfl
@[simp] theorem acceptCommand_ccnt (w : Word) (n : Nat) : (acceptCommand w n s).ccnt = s.ccnt := rfl
@[simp] theorem acceptCommand_state (w : Word) (n : Nat) : (acceptCommand w n s).state = s.state := rfl
@[simp] theorem acceptCommand_err (w : Word) (n : Nat) : (acceptCommand w n s).err = s.err := rfl
@[simp] theorem acceptCommand_result (w : Word) (n : Nat) : (acceptCommand w n s).result = s.result := rfl
@[simp] theorem acceptCommand_inFlight (w : Word) (n : Nat) : (acceptCommand w n s).inFlight = 
    some { command := w, delivered := s.stream.take n, byteRequest := false, tableRead := none } := rfl
@[simp] theorem acceptCommand_stream (w : Word) (n : Nat) : (acceptCommand w n s).stream = s.stream.drop n := rfl
@[simp] theorem acceptCommand_fetched (w : Word) (n : Nat) : (acceptCommand w n s).fetched = s.fetched + n := rfl
@[simp] theorem acceptCommand_table (w : Word) (n : Nat) : (acceptCommand w n s).table = s.table := rfl
@[simp] theorem acceptCommand_regRdata (w : Word) (n : Nat) : (acceptCommand w n s).regRdata = s.regRdata := rfl
@[simp] theorem acceptCommand_host (w : Word) (n : Nat) : (acceptCommand w n s).host = s.host := rfl
@[simp] theorem acceptCommand_draws (w : Word) (n : Nat) : (acceptCommand w n s).draws = s.draws := rfl

/-! ### `beforeCommand` -/

@[simp] theorem beforeCommand_rng (f : InFlight) : (beforeCommand f s).rng = s.rng := rfl
@[simp] theorem beforeCommand_val (f : InFlight) : (beforeCommand f s).val = s.val := rfl
@[simp] theorem beforeCommand_cbyte (f : InFlight) : (beforeCommand f s).cbyte = s.cbyte := rfl
@[simp] theorem beforeCommand_ccnt (f : InFlight) : (beforeCommand f s).ccnt = s.ccnt := rfl
@[simp] theorem beforeCommand_state (f : InFlight) : (beforeCommand f s).state = s.state := rfl
@[simp] theorem beforeCommand_err (f : InFlight) : (beforeCommand f s).err = s.err := rfl
@[simp] theorem beforeCommand_result (f : InFlight) : (beforeCommand f s).result = s.result := rfl
@[simp] theorem beforeCommand_inFlight (f : InFlight) : (beforeCommand f s).inFlight = none := rfl
@[simp] theorem beforeCommand_stream (f : InFlight) : (beforeCommand f s).stream = f.delivered ++ s.stream := rfl
@[simp] theorem beforeCommand_fetched (f : InFlight) : (beforeCommand f s).fetched = s.fetched - f.delivered.length := rfl
@[simp] theorem beforeCommand_table (f : InFlight) : (beforeCommand f s).table = s.table := rfl
@[simp] theorem beforeCommand_regRdata (f : InFlight) : (beforeCommand f s).regRdata = s.regRdata := rfl
@[simp] theorem beforeCommand_host (f : InFlight) : (beforeCommand f s).host = s.host := rfl
@[simp] theorem beforeCommand_draws (f : InFlight) : (beforeCommand f s).draws = s.draws := rfl

/-! ### `presentWord` -/

@[simp] theorem presentWord_rng (w : Word) : (presentWord w s).rng = s.rng := rfl
@[simp] theorem presentWord_val (w : Word) : (presentWord w s).val = s.val := rfl
@[simp] theorem presentWord_cbyte (w : Word) : (presentWord w s).cbyte = s.cbyte := rfl
@[simp] theorem presentWord_ccnt (w : Word) : (presentWord w s).ccnt = s.ccnt := rfl
@[simp] theorem presentWord_state (w : Word) : (presentWord w s).state = s.state := rfl
@[simp] theorem presentWord_err (w : Word) : (presentWord w s).err = s.err := rfl
@[simp] theorem presentWord_result (w : Word) : (presentWord w s).result = s.result := rfl
@[simp] theorem presentWord_inFlight (w : Word) : (presentWord w s).inFlight = none := rfl
@[simp] theorem presentWord_stream (w : Word) : (presentWord w s).stream = s.stream := rfl
@[simp] theorem presentWord_fetched (w : Word) : (presentWord w s).fetched = s.fetched := rfl
@[simp] theorem presentWord_table (w : Word) : (presentWord w s).table = s.table := rfl
@[simp] theorem presentWord_regRdata (w : Word) : (presentWord w s).regRdata = s.regRdata := rfl
@[simp] theorem presentWord_host (w : Word) : (presentWord w s).host = .command w :: s.host := rfl
@[simp] theorem presentWord_draws (w : Word) : (presentWord w s).draws = s.draws := rfl

/-! ### The register read port -/

theorem readPort_eq (a : BitVec 3) :
    readPort a s = { s with regRdata := (readPort a s).regRdata, draws := (readPort a s).draws } := by
  unfold readPort
  split <;> rfl

/-- An update of `ERR` alone. -/
theorem raiseIllegal_eq : raiseIllegal s = { s with err := .illegal } := rfl

/-- What an idle read of a register leaves. -/
theorem readPort_idle (a : BitVec 3) (h : s.busy = false) : readPort a s = { s with regRdata := readIdle a s } := by
  simp [readPort, h]

end Sys2Proof.Machine
end

