-- ==== Sys2Proof/Laws/Normalize.lean ====
section
/-! SUPPORT. Renormalization: one step, the loop as the spec writes it, and the loop in closed form. -/

namespace Sys2Proof.Machine

/-- Inside the loop the top byte is 0, so the pair looked up is (8, 0xFF) (43_normalize_bits.md R148). -/
theorem topByte_eq_zero (rng : Word) (h : rng.toNat ≤ 2 ^ 23) : topByte rng = 0 := by
  apply BitVec.eq_of_toNat_eq
  simp [topByte, BitVec.extractLsb'_toNat, Nat.shiftRight_eq_div_pow]
  omega

theorem lutShift_zero : lutShift 0 = 8#4 := by decide

theorem lutAdd_zero : lutAdd 0 = 255#8 := by decide

/-- `VAL` after a step that reads the chunk `c` (43_normalize_bits.md R148). -/
def shiftedVal (val c : Nat) : Nat := (val * 256 + (255 - c)) % 2 ^ 31

/-- One step at or below the threshold (43_normalize_bits.md R148). -/
theorem normalizeStep_eq (s : State) (h : s.rng.toNat ≤ 2 ^ 23) :
    normalizeStep s =
      match readBits 8 { s with rng := BitVec.ofNat 32 (s.rng.toNat * 256) } with
      | .exhausted s1 => .exhausted s1
      | .ok c s1 => .ok () { s1 with val := BitVec.ofNat 32 (shiftedVal s1.val.toNat c) } := by
  unfold normalizeStep
  simp only [topByte_eq_zero s.rng h, lutShift_zero, lutAdd_zero]
  rfl

/-- What is left to read: one more than the bytes of the stream where a whole byte stands unread in the cursor. -/
def passesLeft (s : State) : Nat := s.stream.length + if s.ccnt.val = 0 then 1 else 0

/-- A step that completes leaves one pass less. -/
theorem normalizeStep_passes {s s1 : State} (h : s.rng.toNat ≤ 2 ^ 23) (hs : normalizeStep s = .ok () s1) :
    passesLeft s1 + 1 = passesLeft s := by
  rw [normalizeStep_eq s h] at hs
  have hspec := readBitsInto_spec 8 0 { s with rng := BitVec.ofNat 32 (s.rng.toNat * 256) }
  rcases hspec with ⟨hn, t, he, hub, hsb, hf, hst, hcc⟩ | ⟨-, t, he, -⟩
  · rw [readBits, he] at hs
    simp only [Raised.ok.injEq, true_and] at hs
    subst hs
    rw [length_unreadBits] at hn
    simp only at hn hst hcc
    have hlt := s.ccnt.isLt
    have hcc' : t.ccnt.val = (8 + s.ccnt.val - 1) % 8 + 1 := by simpa using hcc
    by_cases h0 : s.ccnt.val = 0
    · simp [passesLeft, hst, hcc', h0]
    · have hd : (8 + s.ccnt.val - 1) / 8 = 1 := by omega
      simp only [passesLeft, hst, hcc', hd, h0, List.length_drop, if_false]
      rw [if_neg (by omega)]
      omega
  · rw [readBits, he] at hs
    simp at hs

/-- The loop with enough fuel does not depend on the fuel. -/
theorem normalizeLoop_fuel (f g : Nat) (s : State) (hf : passesLeft s < f) (hg : passesLeft s < g) :
    normalizeLoop f s = normalizeLoop g s := by
  induction f generalizing g s with
  | zero => omega
  | succ f ih =>
    cases g with
    | zero => omega
    | succ g =>
      simp only [normalizeLoop]
      split
      · next h =>
        cases hs : normalizeStep s with
        | exhausted s1 => rfl
        | ok u s1 =>
          have := normalizeStep_passes h hs
          exact ih g s1 (by omega) (by omega)
      · rfl

theorem passesLeft_lt (s : State) : passesLeft s < s.stream.length + 2 := by
  unfold passesLeft
  split <;> omega

/-- `Normalize` is the loop of 43_normalize_bits.md R145: its fuel never shows. -/
theorem normalize_eq (s : State) :
    normalize s =
      if s.rng.toNat ≤ 2 ^ 23 then
        match normalizeStep s with
        | .exhausted s1 => .exhausted s1
        | .ok _ s1 => normalize s1
      else .ok () s := by
  rw [normalize, normalizeLoop, Config.normThreshold]
  split
  · next h =>
    cases hs : normalizeStep s with
    | exhausted s1 => rfl
    | ok u s1 =>
      have := normalizeStep_passes h hs
      have := passesLeft_lt s
      exact normalizeLoop_fuel _ _ s1 (by omega) (passesLeft_lt s1)
  · rfl

/-- Above the threshold nothing is done. -/
theorem normalize_above (s : State) (h : 2 ^ 23 < s.rng.toNat) : normalize s = .ok () s := by
  rw [normalize_eq, if_neg (by omega)]

/-- A step through a cursor with one unread bit, when a byte is there. -/
theorem normalizeStep_byte (s : State) (b : Byte) (rest : List Byte) (h : s.rng.toNat ≤ 2 ^ 23) (hc : s.ccnt = 7)
    (hs : s.stream = b :: rest) :
    normalizeStep s = .ok ()
      { s with
        rng := BitVec.ofNat 32 (s.rng.toNat * 256)
        val := BitVec.ofNat 32 (shiftedVal s.val.toNat (s.cbyte.toNat % 2 * 128 + b.toNat / 2))
        cbyte := b
        stream := rest
        fetched := s.fetched + 1 } := by
  rw [normalizeStep_eq s h, readBits_chunk { s with rng := BitVec.ofNat 32 (s.rng.toNat * 256) } b rest hc hs]

/-- Where the stream is empty, renormalization at or below the threshold meets end-of-data. -/
theorem normalize_empty (s : State) (h : s.rng.toNat ≤ 2 ^ 23) (hc : s.ccnt = 7) (hs : s.stream = []) :
    ∃ t, normalize s = .exhausted t ∧ raiseExhausted t = raiseExhausted s := by
  obtain ⟨t, he, h1, h2, h3⟩ := readBits_chunk_empty { s with rng := BitVec.ofNat 32 (s.rng.toNat * 256) } hc hs
  refine ⟨t, ?_, ?_⟩
  · rw [normalize_eq, if_pos h, normalizeStep_eq s h, he]
  · unfold SameButSource at h3
    rw [h3]
    simp only [raiseExhausted, h1, h2, hs]

end Sys2Proof.Machine
end

