-- ==== Sys2Proof/Laws/ClosedForm.lean ====
section
/-! SUPPORT. Renormalization in closed form: from a coder in range it is `normSteps` steps at once, or end-of-data. -/

namespace Sys2Proof.Machine

/-! ## Bit strings as numbers -/

theorem foldl_bits (l : List Nat) (r : Nat) :
    l.foldl (fun r b => r * 2 + b) r = r * 2 ^ l.length + bitsToNat l := by
  induction l generalizing r with
  | nil => simp [bitsToNat]
  | cons b l ih =>
    have h : bitsToNat (b :: l) = b * 2 ^ l.length + bitsToNat l := by
      rw [bitsToNat, List.foldl_cons, ih, Nat.zero_mul, Nat.zero_add]
    rw [List.foldl_cons, ih, h, List.length_cons, pow_succ]
    ring

theorem bitsToNat_append (l l' : List Nat) : bitsToNat (l ++ l') = bitsToNat l * 2 ^ l'.length + bitsToNat l' := by
  rw [bitsToNat, List.foldl_append, foldl_bits]
  rfl

theorem bitsToNat_lt (l : List Nat) (h : ∀ b ∈ l, b < 2) : bitsToNat l < 2 ^ l.length := by
  induction l with
  | nil => simp [bitsToNat]
  | cons b l ih =>
    have hb := h b (by simp)
    have hl := ih fun x hx => h x (by simp [hx])
    have := bitsToNat_append [b] l
    simp only [List.singleton_append] at this
    rw [this, List.length_cons, pow_succ]
    have h1 : bitsToNat [b] ≤ 1 := by simp [bitsToNat]; omega
    nlinarith [Nat.mul_le_mul_right (2 ^ l.length) h1]

theorem byteBits_lt (b : Byte) : ∀ x ∈ byteBits b, x < 2 := by
  intro x hx
  simp only [byteBits, List.mem_map] at hx
  obtain ⟨i, -, rfl⟩ := hx
  exact Nat.mod_lt _ (by decide)

theorem unreadBits_lt (s : State) : ∀ x ∈ unreadBits s, x < 2 := by
  intro x hx
  simp only [unreadBits, List.mem_append, List.mem_flatMap] at hx
  rcases hx with hx | ⟨b, -, hx⟩
  · exact byteBits_lt _ x (List.mem_of_mem_drop hx)
  · exact byteBits_lt b x hx

theorem nextBits_lt (n : Nat) (s : State) : nextBits n s < 2 ^ n := by
  have h := bitsToNat_lt ((unreadBits s).take n) fun x hx => unreadBits_lt s x (List.mem_of_mem_take hx)
  exact h.trans_le (Nat.pow_le_pow_right (by decide) (by simp))

theorem nextBits_lt_pow (n : Nat) (s : State) : nextBits (8 * n) s < 256 ^ n := by
  have := nextBits_lt (8 * n) s
  rwa [pow_mul] at this

/-! ## One step of the closed form -/

/-- The state after one step through a cursor with one unread bit. -/
def steppedBy (b : Byte) (rest : List Byte) (s : State) : State :=
  { s with
    rng := BitVec.ofNat 32 (s.rng.toNat * 256)
    val := BitVec.ofNat 32 (shiftedVal s.val.toNat (s.cbyte.toNat % 2 * 128 + b.toNat / 2))
    cbyte := b
    stream := rest
    fetched := s.fetched + 1 }

/-- The next `8(n+1)` bits are the chunk and the `8n` bits after it. -/
theorem nextBits_succ (n : Nat) (s s1 : State) (b : Byte) (rest : List Byte) (hc : s.ccnt = 7) (hs : s.stream = b :: rest)
    (hc1 : s1.ccnt = 7) (hcb : s1.cbyte = b) (hst : s1.stream = rest) (hn : n ≤ rest.length) :
    nextBits (8 * (n + 1)) s =
      (s.cbyte.toNat % 2 * 128 + b.toNat / 2) * 256 ^ n + nextBits (8 * n) s1 := by
  rcases readBitsInto_spec 8 0 s with ⟨hlen, t, he, hub, -⟩ | ⟨-, t, he, -⟩
  · have hchunk := readBits_chunk s b rest hc hs
    rw [readBits, he] at hchunk
    simp only [Raised.ok.injEq] at hchunk
    obtain ⟨hbits, ht⟩ := hchunk
    have hu1 : unreadBits s1 = (unreadBits s).drop 8 := by
      rw [← hub, ht]
      simp [unreadBits, hc1, hcb, hst, hc]
    have hsplit : (unreadBits s).take (8 * (n + 1)) = (unreadBits s).take 8 ++ (unreadBits s1).take (8 * n) := by
      rw [hu1, Nat.mul_succ, Nat.add_comm, List.take_add]
    have hlen1 : ((unreadBits s1).take (8 * n)).length = 8 * n := by
      rw [List.length_take, length_unreadBits, hst]
      omega
    rw [nextBits, hsplit, bitsToNat_append, hlen1, pow_mul]
    change bitsToNat _ = _ at hbits
    rw [hbits]
    rfl
  · have hchunk := readBits_chunk s b rest hc hs
    rw [readBits, he] at hchunk
    simp at hchunk

theorem toNat_ofNat_of_lt {n : Nat} (h : n < 2 ^ 32) : (BitVec.ofNat 32 n).toNat = n := by
  rw [BitVec.toNat_ofNat, Nat.mod_eq_of_lt h]

/-- In range the mask changes nothing (43_normalize_bits.md R146). -/
theorem shiftedVal_eq {val c : Nat} (hv : val < 2 ^ 23) : shiftedVal val c = val * 256 + (255 - c) := by
  rw [shiftedVal, Nat.mod_eq_of_lt]
  omega

/-- Folding one chunk in, over the bits `C` that follow it. -/
theorem fold_step (v c C p : Nat) (hc : c ≤ 255) (hC : C < p) :
    v * (p * 256) + (p * 256 - 1 - (c * p + C)) = (v * 256 + (255 - c)) * p + (p - 1 - C) := by
  obtain ⟨d, hd⟩ : ∃ d, 255 = c + d := ⟨255 - c, by omega⟩
  have h1 : c * p + d * p = 255 * p := by rw [← Nat.add_mul, ← hd]
  have h2 : (v * 256 + d) * p = v * (p * 256) + d * p := by ring
  rw [show 255 - c = d by omega, h2]
  omega

/-- `n + 1` steps at once are one step and then `n` at once. -/
theorem normalizedBy_succ (n : Nat) (s : State) (b : Byte) (rest : List Byte) (hc : s.ccnt = 7)
    (hs : s.stream = b :: rest) (hn : n ≤ rest.length) (hr : s.rng.toNat ≤ 2 ^ 23) (hv : s.val.toNat < s.rng.toNat) :
    normalizedBy (n + 1) s = normalizedBy n (steppedBy b rest s) := by
  have hbits := nextBits_succ n s (steppedBy b rest s) b rest hc hs hc rfl rfl hn
  have hC := nextBits_lt_pow n (steppedBy b rest s)
  have hb := b.isLt
  set c := s.cbyte.toNat % 2 * 128 + b.toNat / 2 with hcdef
  have hc255 : c ≤ 255 := by omega
  have hrng : (steppedBy b rest s).rng.toNat = s.rng.toNat * 256 := toNat_ofNat_of_lt (by omega)
  have hval : (steppedBy b rest s).val.toNat = s.val.toNat * 256 + (255 - c) := by
    have : (steppedBy b rest s).val = BitVec.ofNat 32 (shiftedVal s.val.toNat c) := rfl
    rw [this, shiftedVal_eq (by omega), toNat_ofNat_of_lt (by omega)]
  unfold normalizedBy
  rw [hrng, hval, hbits]
  set C := nextBits (8 * n) (steppedBy b rest s)
  have e1 : s.rng.toNat * 256 ^ (n + 1) = s.rng.toNat * 256 * 256 ^ n := by ring
  rw [e1, pow_succ 256 n, fold_step _ c C (256 ^ n) hc255 hC]
  simp [loadCoder, takeBytes, steppedBy, hs, Nat.add_assoc, Nat.add_comm 1 n]

theorem normSteps_succ {rng : Nat} (h : rng ≤ 2 ^ 23) (h1 : 1 ≤ rng) : normSteps rng = normSteps (rng * 256) + 1 := by
  unfold normSteps
  repeat' split
  all_goals omega

theorem normSteps_above {rng : Nat} (h : 2 ^ 23 < rng) : normSteps rng = 0 := by
  unfold normSteps
  rw [if_pos h]

/-- Zero steps at once are none. -/
theorem normalizedBy_zero (s : State) : normalizedBy 0 s = s := by
  obtain ⟨rng, val, cbyte, ccnt, state, err, result, inFlight, stream, fetched, table, regRdata, host, draws⟩ := s
  simp [normalizedBy, loadCoder, takeBytes]

/-- From a range of at least 1, with `VAL < RNG` and one unread bit, renormalization is its steps at once and leaves the coder
in range, or the stream ends first (43_normalize_bits.md R147, R148, R149). -/
theorem normalize_closed (s : State) (h1 : 1 ≤ s.rng.toNat) (h31 : s.rng.toNat ≤ 2 ^ 31) (hv : s.val.toNat < s.rng.toNat)
    (hc : s.ccnt = 7) :
    (normSteps s.rng.toNat ≤ s.stream.length ∧ normalize s = .ok () (normalizedBy (normSteps s.rng.toNat) s) ∧
      RangeOk (normalizedBy (normSteps s.rng.toNat) s) ∧ (normalizedBy (normSteps s.rng.toNat) s).ccnt = 7) ∨
    (s.stream.length < normSteps s.rng.toNat ∧ ∃ t, normalize s = .exhausted t ∧
      raiseExhausted t = raiseExhausted (drained s)) := by
  generalize hn : normSteps s.rng.toNat = n
  induction n generalizing s with
  | zero =>
    have hab : 2 ^ 23 < s.rng.toNat := by
      by_contra hle
      have := normSteps_succ (Nat.not_lt.mp hle) h1
      omega
    left
    rw [normalizedBy_zero]
    exact ⟨Nat.zero_le _, normalize_above s hab, ⟨hab, h31, hv⟩, hc⟩
  | succ n ih =>
    have hle : s.rng.toNat ≤ 2 ^ 23 := by
      by_contra hgt
      have := normSteps_above (Nat.not_le.mp hgt)
      omega
    have hsn : normSteps (s.rng.toNat * 256) = n := by
      have := normSteps_succ hle h1
      omega
    cases hs : s.stream with
    | nil =>
      right
      obtain ⟨t, he, ht⟩ := normalize_empty s hle hc hs
      refine ⟨by simp, t, he, ht.trans ?_⟩
      simp [raiseExhausted, drained, hs]
    | cons b rest =>
      have hstep := normalizeStep_byte s b rest hle hc hs
      have hnorm : normalize s = normalize (steppedBy b rest s) := by
        rw [normalize_eq, if_pos hle, hstep]
        rfl
      have hb := b.isLt
      have hrng : (steppedBy b rest s).rng.toNat = s.rng.toNat * 256 := toNat_ofNat_of_lt (by omega)
      have hval : (steppedBy b rest s).val.toNat < s.rng.toNat * 256 := by
        have : (steppedBy b rest s).val =
            BitVec.ofNat 32 (shiftedVal s.val.toNat (s.cbyte.toNat % 2 * 128 + b.toNat / 2)) := rfl
        rw [this, shiftedVal_eq (by omega), toNat_ofNat_of_lt (by omega)]
        omega
      rcases ih (steppedBy b rest s) (by omega) (by omega) (by omega) hc (by rw [hrng]; exact hsn) with
        ⟨hlen, hok, hrange, hcc⟩ | ⟨hlen, t, he, ht⟩
      · left
        have hlen' : n ≤ rest.length := hlen
        have hsucc := normalizedBy_succ n s b rest hc hs hlen' hle hv
        rw [hsucc, hnorm]
        exact ⟨by simpa using hlen', hok, hrange, hcc⟩
      · right
        refine ⟨Nat.succ_lt_succ hlen, t, hnorm.trans he, ht.trans ?_⟩
        simp [raiseExhausted, drained, steppedBy, hs]
        omega

end Sys2Proof.Machine
end

