-- ==== Sys2Proof/Laws/Icdf.lean ====
section
/-! SUPPORT. ICDF tables: the check is the spec's well-formedness, the search finds the symbol that holds the position, and
the arithmetic of a decode stays in range (42_symbol_decode.md R121, R123, R128). -/

namespace Sys2Proof.Machine

/-- The check computes R121. -/
theorem tableWellFormed_iff (e : Entries) (nsym : Nat) : tableWellFormed e nsym = true ↔ TableOk e nsym := by
  simp only [tableWellFormed, Bool.and_eq_true, decide_eq_true_eq, List.all_eq_true, List.mem_range]
  constructor
  · rintro ⟨⟨⟨⟨h1, h2⟩, h3⟩, h4⟩, h5⟩
    refine ⟨h1, h2, fun j hj hjn => ?_, h4, h5⟩
    have := h3 (j - 1) (by omega)
    rwa [show j - 1 + 1 = j by omega, show j - 1 + 2 = j + 1 by omega] at this
  · rintro ⟨h1, h2, h3, h4, h5⟩
    exact ⟨⟨⟨⟨h1, h2⟩, fun j hj => h3 (j + 1) (by omega) (by omega)⟩, h4⟩, h5⟩

/-- Entries from 1 on rise. -/
theorem TableOk.mono {e : Entries} {nsym : Nat} (h : TableOk e nsym) {i j : Nat} (hi : 1 ≤ i) (hij : i ≤ j)
    (hj : j ≤ nsym) : e i ≤ e j := by
  induction j, hij using Nat.le_induction with
  | base => exact le_refl _
  | succ j hij ih => exact (ih (by omega)).trans (h.rising j (by omega) (by omega))

/-- No entry from 1 on is above the total. -/
theorem TableOk.le_total {e : Entries} {nsym : Nat} (h : TableOk e nsym) {j : Nat} (hj : 1 ≤ j) (hjn : j ≤ nsym) :
    e j ≤ e 0 := h.last ▸ h.mono hj hjn (le_refl _)

/-- All `search` can do: it finds the first symbol whose upper bound is above the position, or there is none. -/
theorem search_cases (e : Entries) (nsym fs : Nat) :
    (search e nsym fs < nsym ∧ fs < e (search e nsym fs + 1) ∧ ∀ j, j < search e nsym fs → e (j + 1) ≤ fs) ∨
    (search e nsym fs = nsym - 1 ∧ ∀ j, j < nsym → e (j + 1) ≤ fs) := by
  unfold search
  cases hf : (List.range nsym).find? fun j => decide (fs < e (j + 1)) with
  | none =>
    right
    refine ⟨rfl, fun j hj => ?_⟩
    have := List.find?_eq_none.mp hf j (List.mem_range.mpr hj)
    simpa using this
  | some k =>
    left
    rw [List.find?_range_eq_some] at hf
    obtain ⟨hk, hmem, hlt⟩ := hf
    refine ⟨List.mem_range.mp hmem, by simpa using hk, fun j hj => ?_⟩
    simpa using hlt j hj

/-- For a well-formed table and a position below the total, `search` finds the symbol that holds it. -/
theorem search_holds {e : Entries} {nsym fs : Nat} (h : TableOk e nsym) (hfs : fs < e 0) :
    SymbolHolds e nsym fs (search e nsym fs) := by
  have h5 := h.one_symbol
  rcases search_cases e nsym fs with ⟨hk, hhi, hlo⟩ | ⟨-, hnone⟩
  · refine ⟨hk, ?_, hhi⟩
    unfold lowBound
    split
    · exact Nat.zero_le _
    · next h0 =>
      have := hlo (search e nsym fs - 1) (by omega)
      rwa [show search e nsym fs - 1 + 1 = search e nsym fs by omega] at this
  · have := hnone (nsym - 1) (by omega)
    rw [show nsym - 1 + 1 = nsym by omega, h.last] at this
    omega

/-- At most one symbol of a well-formed table holds a position. -/
theorem SymbolHolds.unique {e : Entries} {nsym fs k k' : Nat} (h : TableOk e nsym) (hk : SymbolHolds e nsym fs k)
    (hk' : SymbolHolds e nsym fs k') : k = k' := by
  have low_of_lt {a b : Nat} (ha : SymbolHolds e nsym fs a) (hb : SymbolHolds e nsym fs b) : ¬ a < b := by
    intro hab
    have h1 := hb.2.1
    rw [lowBound, if_neg (by omega)] at h1
    have h2 := ha.2.2
    rw [highBound] at h2
    have := h.mono (show 1 ≤ a + 1 by omega) (show a + 1 ≤ b by omega) (le_of_lt hb.1)
    omega
  have := low_of_lt hk hk'
  have := low_of_lt hk' hk
  omega

/-- The bounds of the decoded symbol (42_symbol_decode.md R128 (a)). -/
theorem SymbolHolds.bounds {e : Entries} {nsym fs k : Nat} (h : TableOk e nsym) (hk : SymbolHolds e nsym fs k) :
    lowBound e k < highBound e k ∧ highBound e k ≤ e 0 :=
  ⟨hk.2.1.trans_lt hk.2.2, h.le_total (by omega) hk.1⟩

/-- The arithmetic of a decode (42_symbol_decode.md R128 (b) to (f)): `scale` at least 128, no subtraction below zero, the new
`VAL` below the new `RNG`, and the new `RNG` between `scale` and the old one. -/
theorem icdf_arith {rng val ft fl fh : Nat} (hr : 2 ^ 23 < rng) (hv : val < rng) (hft : 1 ≤ ft) (hftm : ft ≤ 65536)
    (hl : fl ≤ ft - min (val / (rng / ft) + 1) ft) (hh : ft - min (val / (rng / ft) + 1) ft < fh) (hhm : fh ≤ ft) :
    128 ≤ rng / ft ∧ rng / ft * (ft - fh) ≤ val ∧ rng / ft * ft ≤ rng ∧
      (0 < fl → val - rng / ft * (ft - fh) < rng / ft * (fh - fl) ∧ rng / ft ≤ rng / ft * (fh - fl) ∧
        rng / ft * (fh - fl) ≤ rng) ∧
      (fl = 0 → val - rng / ft * (ft - fh) < rng - rng / ft * (ft - fh) ∧ rng / ft ≤ rng - rng / ft * (ft - fh)) := by
  have hscale : 128 ≤ rng / ft := by
    rw [Nat.le_div_iff_mul_le (by omega)]
    omega
  have hdiv : rng / ft * ft ≤ rng := Nat.div_mul_le_self rng ft
  generalize hs : rng / ft = scale at *
  have ht : scale * (val / scale) ≤ val := Nat.mul_div_le val scale
  have ht1 : val < scale * (val / scale + 1) := by
    have := Nat.lt_mul_div_succ val (show 0 < scale by omega)
    simpa using this
  generalize val / scale = t at *
  have hle : ft - fh ≤ t := by omega
  have hmul : scale * (ft - fh) ≤ scale * t := Nat.mul_le_mul_left _ hle
  refine ⟨hscale, hmul.trans ht, hdiv, fun hfl => ?_, fun hfl => ?_⟩
  · have hsplit : scale * (ft - fl) = scale * (ft - fh) + scale * (fh - fl) := by
      rw [← Nat.mul_add]
      congr 1
      omega
    have htle : t + 1 ≤ ft - fl := by omega
    have h1 : scale * (t + 1) ≤ scale * (ft - fl) := Nat.mul_le_mul_left _ htle
    have h2 : scale * 1 ≤ scale * (fh - fl) := Nat.mul_le_mul_left _ (by omega)
    have h3 : scale * (fh - fl) ≤ scale * ft := Nat.mul_le_mul_left _ (by omega)
    omega
  · have hsplit : scale * ft = scale * (ft - fh) + scale * fh := by
      rw [← Nat.mul_add]
      congr 1
      omega
    have h2 : scale * 1 ≤ scale * fh := Nat.mul_le_mul_left _ (by omega)
    omega

end Sys2Proof.Machine
end

