-- ==== Sys2Proof/Laws/Exec.lean ====
section
/-! SUPPORT. What each command can do, said once: its failures change `ERR` alone, or the stream ends, or it completes. -/

namespace Sys2Proof.Machine

/-- A state changed in the coder, the cursor and the byte source alone. -/
def SameButCoder (s s' : State) : Prop :=
  s' = { s with
    rng := s'.rng, val := s'.val, cbyte := s'.cbyte, ccnt := s'.ccnt, stream := s'.stream, fetched := s'.fetched }

theorem SameButCoder.trans {s s' s'' : State} (h : SameButCoder s s') (h' : SameButCoder s' s'') :
    SameButCoder s s'' := by
  unfold SameButCoder at *
  rw [h', h]

theorem SameButSource.coder {s s' : State} (h : SameButSource s s') : SameButCoder s s' := by
  unfold SameButSource at h
  unfold SameButCoder
  rw [h]

/-- `s'` has taken `n` bytes from the stream of `s`, and is otherwise `s` but for the coder and the cursor. -/
def Took (n : Nat) (s s' : State) : Prop :=
  SameButCoder s s' ∧ s'.stream = s.stream.drop n ∧ s'.fetched = s.fetched + n ∧ n ≤ s.stream.length

theorem Took.trans {n m : Nat} {s s' s'' : State} (h : Took n s s') (h' : Took m s' s'') : Took (n + m) s s'' := by
  obtain ⟨a1, a2, a3, a4⟩ := h
  obtain ⟨b1, b2, b3, b4⟩ := h'
  refine ⟨a1.trans b1, by rw [b2, a2, List.drop_drop], by omega, ?_⟩
  rw [a2, List.length_drop] at b4
  omega

theorem Took.loadCoder (r v : Nat) (s : State) : Took 0 s (loadCoder r v s) :=
  ⟨rfl, rfl, rfl, Nat.zero_le _⟩

/-- Where the stream has been drained, exhaustion leaves the same state whatever the coder held. -/
theorem raiseExhausted_of_drained {s t : State} (h : SameButCoder s t) (h1 : t.stream = [])
    (h2 : t.fetched = s.fetched + s.stream.length) : raiseExhausted t = raiseExhausted (drained s) := by
  unfold SameButCoder at h
  rw [h]
  simp only [raiseExhausted, drained, h1, h2]

/-- Draining after some bytes were taken is draining. -/
theorem Took.drained {n : Nat} {s s' : State} (h : Took n s s') :
    raiseExhausted (drained s') = raiseExhausted (drained s) := by
  obtain ⟨h1, h2, h3, h4⟩ := h
  apply raiseExhausted_of_drained (s := s) (t := Machine.drained s')
  · exact h1.trans rfl
  · rfl
  · simp only [Machine.drained, h2, h3, List.length_drop]
    omega

/-- All `readBits` can do to the state. -/
theorem readBits_cases (n : Nat) (s : State) :
    (∃ c t, readBits n s = .ok c t ∧ c < 2 ^ n ∧ Took ((n + s.ccnt.val - 1) / 8) s t) ∨
    (∃ t, readBits n s = .exhausted t ∧ raiseExhausted t = raiseExhausted (drained s)) := by
  rcases readBitsInto_spec n 0 s with ⟨hn, t, he, -, hsb, hf, hst, -⟩ | ⟨-, t, he, hst, hf, hsb⟩
  · left
    have hlt := bitsToNat_lt ((unreadBits s).take n) fun x hx => unreadBits_lt s x (List.mem_of_mem_take hx)
    rw [List.length_take, Nat.min_eq_left hn] at hlt
    refine ⟨_, t, he, hlt, hsb.coder, hst, hf, ?_⟩
    rw [length_unreadBits] at hn
    omega
  · right
    exact ⟨t, he, raiseExhausted_of_drained hsb.coder hst hf⟩

/-- All `normalize` can do to the state. -/
theorem normalize_cases (s : State) :
    (∃ n t, normalize s = .ok () t ∧ Took n s t) ∨
    (∃ t, normalize s = .exhausted t ∧ raiseExhausted t = raiseExhausted (drained s)) := by
  generalize hp : passesLeft s = p
  induction p using Nat.strong_induction_on generalizing s with
  | _ p ih =>
    by_cases h : s.rng.toNat ≤ 2 ^ 23
    · have hstep := normalizeStep_eq s h
      have hload : Took 0 s { s with rng := BitVec.ofNat 32 (s.rng.toNat * 256) } := ⟨rfl, rfl, rfl, Nat.zero_le _⟩
      rcases readBits_cases 8 { s with rng := BitVec.ofNat 32 (s.rng.toNat * 256) } with
        ⟨c, t, he, -, htook⟩ | ⟨t, he, ht⟩
      · rw [he] at hstep
        have hn : normalize s = normalize { t with val := BitVec.ofNat 32 (shiftedVal t.val.toNat c) } := by
          rw [normalize_eq, if_pos h, hstep]
        have hpass := normalizeStep_passes h hstep
        have hval : Took 0 t { t with val := BitVec.ofNat 32 (shiftedVal t.val.toNat c) } :=
          ⟨rfl, rfl, rfl, Nat.zero_le _⟩
        have hall := (hload.trans htook).trans hval
        rcases ih _ (by omega) { t with val := BitVec.ofNat 32 (shiftedVal t.val.toNat c) } rfl with
          ⟨n, t', he', htook'⟩ | ⟨t', he', ht'⟩
        · exact .inl ⟨_, t', hn.trans he', hall.trans htook'⟩
        · exact .inr ⟨t', hn.trans he', ht'.trans hall.drained⟩
      · rw [he] at hstep
        exact .inr ⟨t, by rw [normalize_eq, if_pos h, hstep], ht.trans hload.drained⟩
    · exact .inl ⟨0, s, normalize_above s (by omega), rfl, rfl, rfl, Nat.zero_le _⟩

/-- All `finish` can do after a renormalization. -/
theorem finish_normalize_cases (complete : State → State) {n : Nat} {s s' : State} (h : Took n s s') :
    (∃ m t, finish complete (normalize s') = .next (complete t) ∧ Took m s t) ∨
    finish complete (normalize s') = .next (raiseExhausted (drained s)) := by
  rcases normalize_cases s' with ⟨m, t, he, ht⟩ | ⟨t, he, ht⟩
  · exact .inl ⟨_, t, by rw [he]; rfl, h.trans ht⟩
  · exact .inr (by rw [he]; simp only [finish]; rw [ht, h.drained])

/-- All `whenReady` can do. -/
theorem whenReady_cases (s : State) (run : State → Host.Outcome State Fault Refusal) :
    (s.state = .uninit ∧ whenReady s run = .next (raiseNotReady s)) ∨
    (s.state = .exhausted ∧ whenReady s run = .next (reportExhausted s)) ∨
    (Live s ∧ whenReady s run = run s) := by
  unfold whenReady Live
  cases s.state <;> simp

theorem whenReady_live {s : State} (h : Live s) (run : State → Host.Outcome State Fault Refusal) :
    whenReady s run = run s := by
  rcases h with h | h <;> simp [whenReady, h]

/-- All `INIT` can do (41_lifecycle_init.md R116). -/
theorem execInit_cases (s : State) :
    (∃ n t, execInit s = .next (completeInit t) ∧ Took n s t) ∨ execInit s = .next (raiseExhausted (drained s)) := by
  have hempty : Took 0 s (emptyCursor s) := ⟨rfl, rfl, rfl, Nat.zero_le _⟩
  unfold execInit
  rcases readBits_cases Config.initBits (emptyCursor s) with ⟨b, t, he, -, ht⟩ | ⟨t, he, ht⟩
  · rw [he]
    exact finish_normalize_cases completeInit ((hempty.trans ht).trans (Took.loadCoder 128 (127 - b) t))
  · right
    rw [he]
    simp only [ht, hempty.drained]

/-- `DECLOGP`'s update touches the coder alone. -/
theorem logpUpdate_took (scale : Nat) (s : State) : Took 0 s (logpUpdate scale s) := by
  unfold logpUpdate
  split <;> exact Took.loadCoder _ _ s

/-- `DECICDF`'s update touches the coder alone. -/
theorem icdfUpdate_took (e : Entries) (k : Nat) (s : State) : Took 0 s (icdfUpdate e k s) := by
  unfold icdfUpdate
  dsimp only
  split <;> exact Took.loadCoder _ _ s

/-- All `DECLOGP` can do (60_exceptions.md R166). -/
theorem execDeclogp_cases (logp : BitVec 5) (s : State) :
    (¬ logpLegal logp ∧ execDeclogp logp s = .next (raiseIllegal s)) ∨
    (logpLegal logp ∧ s.state = .uninit ∧ execDeclogp logp s = .next (raiseNotReady s)) ∨
    (logpLegal logp ∧ s.state = .exhausted ∧ execDeclogp logp s = .next (reportExhausted s)) ∨
    (logpLegal logp ∧ Live s ∧
      ((∃ n t w, execDeclogp logp s = .next (completeDecode w t) ∧ Took n s t) ∨
        execDeclogp logp s = .next (raiseExhausted (drained s)))) := by
  unfold execDeclogp
  by_cases hl : logpLegal logp
  · simp only [if_pos hl]
    rcases whenReady_cases s (runDeclogp logp) with ⟨h, he⟩ | ⟨h, he⟩ | ⟨h, he⟩
    · exact .inr (.inl ⟨hl, h, he⟩)
    · exact .inr (.inr (.inl ⟨hl, h, he⟩))
    · refine .inr (.inr (.inr ⟨hl, h, ?_⟩))
      rw [he]
      rcases finish_normalize_cases
          (completeDecode (BitVec.ofNat 32 (logpBit s.val.toNat (logpScale s.rng.toNat logp))))
          (logpUpdate_took (logpScale s.rng.toNat logp) s) with ⟨n, t, hf, ht⟩ | hf
      · exact .inl ⟨n, t, _, hf, ht⟩
      · exact .inr hf
  · exact .inl ⟨hl, by simp [hl]⟩

/-- All `DECICDF` can do (60_exceptions.md R166, 42_symbol_decode.md R129). -/
theorem execDecicdf_cases (tbase : Addr) (nsym : BitVec 8) (s : State) :
    (¬ (nsymLegal nsym ∧ windowLegal tbase nsym) ∧ execDecicdf tbase nsym s = .next (raiseIllegal s)) ∨
    ((nsymLegal nsym ∧ windowLegal tbase nsym) ∧
      ((s.state = .uninit ∧ execDecicdf tbase nsym s = .next (raiseNotReady s)) ∨
        (s.state = .exhausted ∧ execDecicdf tbase nsym s = .next (reportExhausted s)) ∨
        (Live s ∧ ¬ TableOk (entries s.table tbase) nsym.toNat ∧
          execDecicdf tbase nsym s = .refused .malformedTable) ∨
        (Live s ∧ TableOk (entries s.table tbase) nsym.toNat ∧
          ((∃ n t w, execDecicdf tbase nsym s = .next (completeDecode w t) ∧ Took n s t) ∨
            execDecicdf tbase nsym s = .next (raiseExhausted (drained s)))))) := by
  unfold execDecicdf
  by_cases hl : nsymLegal nsym ∧ windowLegal tbase nsym
  · refine .inr ⟨hl, ?_⟩
    simp only [if_pos hl]
    rcases whenReady_cases s (runDecicdf tbase nsym) with ⟨h, he⟩ | ⟨h, he⟩ | ⟨h, he⟩
    · exact .inl ⟨h, he⟩
    · exact .inr (.inl ⟨h, he⟩)
    · right
      right
      rw [he]
      unfold runDecicdf
      by_cases ht : tableWellFormed (entries s.table tbase) nsym.toNat = true
      · refine .inr ⟨h, (tableWellFormed_iff _ _).mp ht, ?_⟩
        simp only [ht, if_true]
        rcases finish_normalize_cases
            (completeDecode (BitVec.ofNat 32 (icdfSymbol (entries s.table tbase) nsym.toNat s)))
            (icdfUpdate_took (entries s.table tbase) (icdfSymbol (entries s.table tbase) nsym.toNat s) s) with
          ⟨n, t, hf, ht⟩ | hf
        · exact .inl ⟨n, t, _, hf, ht⟩
        · exact .inr hf
      · exact .inl ⟨h, fun hok => ht ((tableWellFormed_iff _ _).mpr hok), by simp [ht]⟩
  · exact .inl ⟨hl, by rw [if_neg hl]⟩

/-- What a step of the decoder core leaves alone, and how it moves the byte source. -/
structure CoreStep (s t : State) : Prop where
  inFlight : t.inFlight = s.inFlight
  host : t.host = s.host
  table : t.table = s.table
  regRdata : t.regRdata = s.regRdata
  source : ∃ n, n ≤ s.stream.length ∧ t.stream = s.stream.drop n ∧ t.fetched = s.fetched + n

theorem CoreStep.refl (s : State) : CoreStep s s := ⟨rfl, rfl, rfl, rfl, 0, Nat.zero_le _, rfl, rfl⟩

theorem CoreStep.drained (s : State) : CoreStep s (drained s) :=
  ⟨rfl, rfl, rfl, rfl, s.stream.length, le_refl _, by simp [Machine.drained], rfl⟩

theorem Took.coreStep {n : Nat} {s t : State} (h : Took n s t) : CoreStep s t := by
  obtain ⟨h1, h2, h3, h4⟩ := h
  unfold SameButCoder at h1
  exact ⟨by rw [h1], by rw [h1], by rw [h1], by rw [h1], n, h4, h2, h3⟩

/-- Every command that answers a next state is a step of the decoder core. -/
theorem exec_coreStep {i : Instr} {s t : State} (h : exec i s = .next t) : CoreStep s t := by
  have fin {u : State} (hu : exec i s = .next u) (hc : CoreStep s u) : CoreStep s t := by
    rw [hu] at h
    cases h
    exact hc
  cases i with
  | init =>
    rcases execInit_cases s with ⟨n, u, he, hu⟩ | he
    · exact fin he ⟨hu.coreStep.1, hu.coreStep.2, hu.coreStep.3, hu.coreStep.4, hu.coreStep.5⟩
    · exact fin he ⟨rfl, rfl, rfl, rfl, (CoreStep.drained s).source⟩
  | declogp logp =>
    rcases execDeclogp_cases logp s with ⟨-, he⟩ | ⟨-, -, he⟩ | ⟨-, -, he⟩ | ⟨-, -, ⟨n, u, w, he, hu⟩ | he⟩
    · exact fin he ⟨rfl, rfl, rfl, rfl, (CoreStep.refl s).source⟩
    · exact fin he ⟨rfl, rfl, rfl, rfl, (CoreStep.refl s).source⟩
    · exact fin he ⟨rfl, rfl, rfl, rfl, (CoreStep.refl s).source⟩
    · exact fin he ⟨hu.coreStep.1, hu.coreStep.2, hu.coreStep.3, hu.coreStep.4, hu.coreStep.5⟩
    · exact fin he ⟨rfl, rfl, rfl, rfl, (CoreStep.drained s).source⟩
  | decicdf tbase nsym =>
    rcases execDecicdf_cases tbase nsym s with
      ⟨-, he⟩ | ⟨-, ⟨-, he⟩ | ⟨-, he⟩ | ⟨-, -, he⟩ | ⟨-, -, ⟨n, u, w, he, hu⟩ | he⟩⟩
    · exact fin he ⟨rfl, rfl, rfl, rfl, (CoreStep.refl s).source⟩
    · exact fin he ⟨rfl, rfl, rfl, rfl, (CoreStep.refl s).source⟩
    · exact fin he ⟨rfl, rfl, rfl, rfl, (CoreStep.refl s).source⟩
    · exact absurd (he.symm.trans h) (by simp)
    · exact fin he ⟨hu.coreStep.1, hu.coreStep.2, hu.coreStep.3, hu.coreStep.4, hu.coreStep.5⟩
    · exact fin he ⟨rfl, rfl, rfl, rfl, (CoreStep.drained s).source⟩
  | lutrd idx => exact fin rfl ⟨rfl, rfl, rfl, rfl, (CoreStep.refl s).source⟩

/-- A command stops on a malformed table alone (42_symbol_decode.md R129). -/
theorem exec_answers (i : Instr) (s : State) :
    (∃ t, exec i s = .next t) ∨
    (exec i s = .refused .malformedTable ∧ ∃ tbase nsym, i = .decicdf tbase nsym ∧ Live s ∧
      ¬ TableOk (entries s.table tbase) nsym.toNat) := by
  cases i with
  | init => rcases execInit_cases s with ⟨n, u, he, -⟩ | he <;> exact .inl ⟨_, he⟩
  | declogp logp =>
    rcases execDeclogp_cases logp s with ⟨-, he⟩ | ⟨-, -, he⟩ | ⟨-, -, he⟩ | ⟨-, -, ⟨n, u, w, he, -⟩ | he⟩ <;>
      exact .inl ⟨_, he⟩
  | decicdf tbase nsym =>
    rcases execDecicdf_cases tbase nsym s with
      ⟨-, he⟩ | ⟨-, ⟨-, he⟩ | ⟨-, he⟩ | ⟨hl, ht, he⟩ | ⟨-, -, ⟨n, u, w, he, -⟩ | he⟩⟩
    · exact .inl ⟨_, he⟩
    · exact .inl ⟨_, he⟩
    · exact .inl ⟨_, he⟩
    · exact .inr ⟨he, tbase, nsym, rfl, hl, ht⟩
    · exact .inl ⟨_, he⟩
    · exact .inl ⟨_, he⟩
  | lutrd idx => exact .inl ⟨_, rfl⟩

end Sys2Proof.Machine
end

