-- ==== Sys2Proof/Laws/Agree.lean ====
section
/-! SUPPORT. What the operations depend on: raw bits on the cursor and the stream, renormalization on the coder beside
them, and on nothing else of the state (10_state.md R37). -/

namespace Sys2Proof.Machine

/-- The two states have the same cursor and the same stream. -/
def CursorEq (s s' : State) : Prop := s'.cbyte = s.cbyte ∧ s'.ccnt = s.ccnt ∧ s'.stream = s.stream

/-- The two states have the same coder, cursor and stream. -/
def CoderEq (s s' : State) : Prop := s'.rng = s.rng ∧ s'.val = s.val ∧ CursorEq s s'

/-- The two operations raise, or complete with the same value and related states. -/
def RaisedRel {α : Type} (R : State → State → Prop) : Raised α → Raised α → Prop
  | .ok a t, .ok a' t' => a' = a ∧ R t t'
  | .exhausted _, .exhausted _ => True
  | .ok _ _, .exhausted _ => False
  | .exhausted _, .ok _ _ => False

theorem refill_agree {s s' : State} (h : CursorEq s s') :
    (refill s = none ∧ refill s' = none) ∨ ∃ t t', refill s = some t ∧ refill s' = some t' ∧ CursorEq t t' := by
  obtain ⟨h1, h2, h3⟩ := h
  unfold refill fetchByte
  rw [h2, h3]
  split
  · cases s.stream with
    | nil => exact .inl ⟨rfl, rfl⟩
    | cons b rest => exact .inr ⟨_, _, rfl, rfl, rfl, rfl, rfl⟩
  · exact .inr ⟨s, s', rfl, rfl, h1, h2, h3⟩

theorem readBitsInto_agree (n r : Nat) {s s' : State} (h : CursorEq s s') :
    RaisedRel CursorEq (readBitsInto n r s) (readBitsInto n r s') := by
  induction n generalizing r s s' with
  | zero => exact ⟨rfl, h⟩
  | succ n ih =>
    rcases refill_agree h with ⟨h1, h2⟩ | ⟨t, t', h1, h2, ⟨c1, c2, c3⟩⟩
    · simp [readBitsInto, h1, h2, RaisedRel]
    · have hbit : cursorBit t' = cursorBit t := by simp [cursorBit, c1, c2]
      simp only [readBitsInto, h1, h2, hbit]
      exact ih _ ⟨c1, by simp [c2], c3⟩

/-- `ReadBits` depends on the cursor and the stream alone. -/
theorem readBits_agree (n : Nat) {s s' : State} (h : CursorEq s s') :
    RaisedRel CursorEq (readBits n s) (readBits n s') := readBitsInto_agree n 0 h

theorem readBitsInto_keeps (n r : Nat) (s : State) :
    match readBitsInto n r s with
    | .ok _ t => t.rng = s.rng ∧ t.val = s.val
    | .exhausted t => t.rng = s.rng ∧ t.val = s.val := by
  rcases readBitsInto_spec n r s with ⟨-, t, he, -, hsb, -⟩ | ⟨-, t, he, -, -, hsb⟩
  all_goals
    unfold SameButSource at hsb
    rw [he, hsb]
    exact ⟨rfl, rfl⟩

theorem normalizeStep_agree {s s' : State} (h : CoderEq s s') (hr : s.rng.toNat ≤ 2 ^ 23) :
    RaisedRel CoderEq (normalizeStep s) (normalizeStep s') := by
  obtain ⟨h1, h2, h3⟩ := h
  rw [normalizeStep_eq s hr, normalizeStep_eq s' (by rw [h1]; exact hr), h1]
  have hag := readBits_agree 8 (s := { s with rng := BitVec.ofNat 32 (s.rng.toNat * 256) })
    (s' := { s' with rng := BitVec.ofNat 32 (s.rng.toNat * 256) }) h3
  have hk := readBitsInto_keeps 8 0 { s with rng := BitVec.ofNat 32 (s.rng.toNat * 256) }
  have hk' := readBitsInto_keeps 8 0 { s' with rng := BitVec.ofNat 32 (s.rng.toNat * 256) }
  unfold readBits at hag ⊢
  revert hag hk hk'
  cases readBitsInto 8 0 { s with rng := BitVec.ofNat 32 (s.rng.toNat * 256) } with
  | exhausted t =>
    cases readBitsInto 8 0 { s' with rng := BitVec.ofNat 32 (s.rng.toNat * 256) } with
    | exhausted t' => intros; trivial
    | ok c' t' => intro hag; exact hag.elim
  | ok c t =>
    cases readBitsInto 8 0 { s' with rng := BitVec.ofNat 32 (s.rng.toNat * 256) } with
    | exhausted t' => intro hag; exact hag.elim
    | ok c' t' =>
      rintro ⟨rfl, hcur⟩ ⟨k1, k2⟩ ⟨k1', k2'⟩
      exact ⟨rfl, by simp [k1, k1'], by simp [k2, k2', h2], hcur⟩

/-- `Normalize` depends on the coder, the cursor and the stream alone. -/
theorem normalize_agree {s s' : State} (h : CoderEq s s') : RaisedRel CoderEq (normalize s) (normalize s') := by
  generalize hp : passesLeft s = p
  induction p using Nat.strong_induction_on generalizing s s' with
  | _ p ih =>
    by_cases hr : s.rng.toNat ≤ 2 ^ 23
    · have hstep := normalizeStep_agree h hr
      rw [normalize_eq s, normalize_eq s', if_pos hr, if_pos (by rw [h.1]; exact hr)]
      cases hs : normalizeStep s with
      | exhausted t =>
        cases hs' : normalizeStep s' with
        | exhausted t' => trivial
        | ok u' t' => rw [hs, hs'] at hstep; exact hstep.elim
      | ok u t =>
        cases hs' : normalizeStep s' with
        | exhausted t' => rw [hs, hs'] at hstep; exact hstep.elim
        | ok u' t' =>
          rw [hs, hs'] at hstep
          have := normalizeStep_passes hr hs
          exact ih _ (by omega) hstep.2 rfl
    · rw [normalize_above s (by omega), normalize_above s' (by rw [h.1]; omega)]
      exact ⟨rfl, h⟩

/-- The two outcomes are both exhaustion of their states, or both completions, with coders that agree. -/
def OutcomeAgree (complete : State → State) (s s' : State) (o o' : Host.Outcome State Fault Refusal) : Prop :=
  (∃ m m' t t', o = .next (complete t) ∧ o' = .next (complete t') ∧ Took m s t ∧ Took m' s' t' ∧ CoderEq t t') ∨
  (o = .next (raiseExhausted (drained s)) ∧ o' = .next (raiseExhausted (drained s')))

/-- Ending a command after a renormalization, from coders that agree. -/
theorem finish_agree (complete : State → State) {n n' : Nat} {s s' u u' : State} (hu : Took n s u) (hu' : Took n' s' u')
    (h : CoderEq u u') :
    OutcomeAgree complete s s' (finish complete (normalize u)) (finish complete (normalize u')) := by
  have hag := normalize_agree h
  rcases normalize_cases u with ⟨m, t, he, ht⟩ | ⟨t, he, ht⟩ <;>
    rcases normalize_cases u' with ⟨m', t', he', ht'⟩ | ⟨t', he', ht'⟩ <;> rw [he, he'] at hag ⊢
  · exact .inl ⟨_, _, t, t', rfl, rfl, hu.trans ht, hu'.trans ht', hag.2⟩
  · exact hag.elim
  · exact hag.elim
  · exact .inr ⟨by rw [finish, ht, hu.drained], by rw [finish, ht', hu'.drained]⟩

/-- `INIT` depends on the stream alone. -/
theorem execInit_agree {s s' : State} (h : s'.stream = s.stream) :
    OutcomeAgree completeInit s s' (execInit s) (execInit s') := by
  have hag := readBits_agree Config.initBits (s := emptyCursor s) (s' := emptyCursor s') ⟨rfl, rfl, h⟩
  have hs : Took 0 s (emptyCursor s) := ⟨rfl, rfl, rfl, Nat.zero_le _⟩
  have hs' : Took 0 s' (emptyCursor s') := ⟨rfl, rfl, rfl, Nat.zero_le _⟩
  unfold execInit
  rcases readBits_cases Config.initBits (emptyCursor s) with ⟨b, t, he, -, ht⟩ | ⟨t, he, ht⟩ <;>
    rcases readBits_cases Config.initBits (emptyCursor s') with ⟨b', t', he', -, ht'⟩ | ⟨t', he', ht'⟩ <;>
    rw [he, he'] at hag ⊢
  · obtain ⟨rfl, hc⟩ := hag
    exact finish_agree completeInit ((hs.trans ht).trans (Took.loadCoder _ _ t))
      ((hs'.trans ht').trans (Took.loadCoder _ _ t')) ⟨rfl, rfl, hc⟩
  · exact hag.elim
  · exact hag.elim
  · exact .inr ⟨by simp only [ht, hs.drained], by simp only [ht', hs'.drained]⟩

/-- The body of `DECLOGP` depends on the coder, the cursor and the stream alone. -/
theorem runDeclogp_agree (logp : BitVec 5) {s s' : State} (h : CoderEq s s') :
    OutcomeAgree (completeDecode (BitVec.ofNat 32 (logpBit s.val.toNat (logpScale s.rng.toNat logp)))) s s'
      (runDeclogp logp s) (runDeclogp logp s') := by
  obtain ⟨h1, h2, h3⟩ := h
  unfold runDeclogp
  simp only [h1, h2]
  refine finish_agree _ (logpUpdate_took _ s) (logpUpdate_took _ s') ?_
  unfold logpUpdate
  rw [h1, h2]
  split <;> exact ⟨rfl, rfl, h3⟩

/-- Entries of a window that agree give the same check, symbol and update. -/
theorem icdf_agree {e e' : Entries} {nsym : Nat} (h : ∀ j, j ≤ nsym → e' j = e j) {s s' : State} (hc : CoderEq s s') :
    tableWellFormed e' nsym = tableWellFormed e nsym ∧
      (1 ≤ nsym → icdfSymbol e' nsym s' = icdfSymbol e nsym s ∧
        CoderEq (icdfUpdate e (icdfSymbol e nsym s) s) (icdfUpdate e' (icdfSymbol e nsym s) s')) := by
  obtain ⟨h1, h2, h3⟩ := hc
  have hok : TableOk e' nsym ↔ TableOk e nsym := by
    constructor
    · rintro ⟨a, b, c, d, f⟩
      exact ⟨by rwa [← h 0 (Nat.zero_le _)], by rwa [← h 0 (Nat.zero_le _)],
        fun j hj hjn => by rw [← h j (by omega), ← h (j + 1) (by omega)]; exact c j hj hjn,
        by rw [← h nsym (le_refl _), ← h 0 (Nat.zero_le _)]; exact d, f⟩
    · rintro ⟨a, b, c, d, f⟩
      exact ⟨by rwa [h 0 (Nat.zero_le _)], by rwa [h 0 (Nat.zero_le _)],
        fun j hj hjn => by rw [h j (by omega), h (j + 1) (by omega)]; exact c j hj hjn,
        by rw [h nsym (le_refl _), h 0 (Nat.zero_le _)]; exact d, f⟩
  refine ⟨by rw [Bool.eq_iff_iff, tableWellFormed_iff, tableWellFormed_iff, hok], fun hn => ?_⟩
  have h0 := h 0 (Nat.zero_le _)
  have hsearch (fs : Nat) : search e' nsym fs = search e nsym fs := by
    unfold search
    congr 1
    apply List.find?_congr
    intro j hj
    rw [h (j + 1) (List.mem_range.mp hj)]
  have hscale : icdfScale e' s' = icdfScale e s := by simp [icdfScale, h0, h1]
  have hsym : icdfSymbol e' nsym s' = icdfSymbol e nsym s := by simp only [icdfSymbol, hsearch, h0, hscale, h2]
  have hk : icdfSymbol e nsym s < nsym := by
    unfold icdfSymbol
    rcases search_cases e nsym (scaledPosition (e 0) (floorDiv s.val.toNat (icdfScale e s))) with ⟨hk, -⟩ | ⟨hk, -⟩
    · exact hk
    · omega
  refine ⟨hsym, ?_⟩
  have hlow : lowBound e' (icdfSymbol e nsym s) = lowBound e (icdfSymbol e nsym s) := by
    unfold lowBound
    rw [h _ (by omega)]
  have hhigh : highBound e' (icdfSymbol e nsym s) = highBound e (icdfSymbol e nsym s) := h _ (by omega)
  unfold icdfUpdate
  simp only [hscale, hlow, hhigh, h0, h1, h2]
  split <;> exact ⟨rfl, rfl, h3⟩

/-- The entries of two table memories that agree on a legal window. -/
theorem entries_agree {m m' : TableMem} {tbase : Addr} {nsym : BitVec 8} (hw : windowLegal tbase nsym)
    (h : ∀ a : Addr, inWindow tbase nsym a = true → tblRead m' a = tblRead m a) (j : Nat) (hj : j ≤ nsym.toNat) :
    entries m' tbase j = entries m tbase j := by
  unfold entries
  rw [h]
  have hn := nsym.isLt
  have hmax : Config.addrMax = 65535 := rfl
  have hadd : (tbase + BitVec.ofNat 16 j).toNat = tbase.toNat + j := by
    rw [BitVec.toNat_add, BitVec.toNat_ofNat]
    omega
  simp only [inWindow, hadd, Bool.and_eq_true, decide_eq_true_eq]
  omega

/-- The body of `DECICDF` depends on the coder, the cursor, the stream and its window alone. -/
theorem runDecicdf_agree {tbase : Addr} {nsym : BitVec 8} (hn : nsymLegal nsym) (hw : windowLegal tbase nsym)
    {s s' : State} (h : CoderEq s s')
    (ht : ∀ a : Addr, inWindow tbase nsym a = true → tblRead s'.table a = tblRead s.table a) :
    (runDecicdf tbase nsym s = .refused .malformedTable ∧ runDecicdf tbase nsym s' = .refused .malformedTable) ∨
    OutcomeAgree (completeDecode (BitVec.ofNat 32 (icdfSymbol (entries s.table tbase) nsym.toNat s))) s s'
      (runDecicdf tbase nsym s) (runDecicdf tbase nsym s') := by
  obtain ⟨hwf, hrest⟩ := icdf_agree (entries_agree hw ht) h
  obtain ⟨hsym, hupd⟩ := hrest hn
  dsimp only [runDecicdf]
  rw [hwf]
  split
  · right
    rw [hsym]
    exact finish_agree _ (icdfUpdate_took _ _ s) (icdfUpdate_took _ _ s') hupd
  · exact .inl ⟨rfl, rfl⟩

end Sys2Proof.Machine
end

