-- ==== Sys2Proof/Laws/Encode.lean ====
section
/-! SUPPORT. The command words as numbers: each format's fields, and what a word's fields are. -/

namespace Sys2Proof

/-! ### Well-formedness by constructor -/

theorem wellFormed_init : Instr.WellFormed .init := rfl

theorem wellFormed_declogp (logp : BitVec 5) : Instr.WellFormed (.declogp logp) ↔ logpLegal logp := decide_eq_true_iff

theorem wellFormed_decicdf (tbase : Addr) (nsym : BitVec 8) :
    Instr.WellFormed (.decicdf tbase nsym) ↔ nsymLegal nsym ∧ windowLegal tbase nsym := by
  simp only [Instr.WellFormed, Instr.check, Bool.and_eq_true, decide_eq_true_eq]

theorem wellFormed_lutrd (idx : BitVec 8) : Instr.WellFormed (.lutrd idx) := rfl

/-! ### Words as numbers -/

theorem toNat_append_eq {m n : Nat} (x : BitVec m) (y : BitVec n) : (x ++ y).toNat = x.toNat * 2 ^ n + y.toNat := by
  rw [BitVec.toNat_append, ← Nat.shiftLeft_add_eq_or_of_lt y.isLt, Nat.shiftLeft_eq]

theorem encode_init_toNat : (encode .init).toNat = 1 * 2 ^ 28 := rfl

theorem encode_declogp_toNat (logp : BitVec 5) : (encode (.declogp logp)).toNat = 2 * 2 ^ 28 + logp.toNat :=
  toNat_append_eq (0x2#4 ++ 0#23) logp

theorem encode_decicdf_toNat (tbase : Addr) (nsym : BitVec 8) :
    (encode (.decicdf tbase nsym)).toNat = 3 * 2 ^ 28 + tbase.toNat * 2 ^ 8 + nsym.toNat := by
  have h1 : (encode (.decicdf tbase nsym)).toNat = (0x3#4 ++ 0#4 ++ tbase).toNat * 2 ^ 8 + nsym.toNat :=
    toNat_append_eq (0x3#4 ++ 0#4 ++ tbase) nsym
  have h2 : (0x3#4 ++ 0#4 ++ tbase).toNat = 48 * 2 ^ 16 + tbase.toNat := toNat_append_eq (0x3#4 ++ 0#4) tbase
  rw [h1, h2]
  omega

theorem encode_lutrd_toNat (idx : BitVec 8) : (encode (.lutrd idx)).toNat = 4 * 2 ^ 28 + idx.toNat :=
  toNat_append_eq (0x4#4 ++ 0#20) idx

/-- A field of a word as a number. -/
theorem field_toNat (w : Word) (lo len : Nat) : (w.extractLsb' lo len).toNat = w.toNat / 2 ^ lo % 2 ^ len := by
  rw [BitVec.extractLsb'_toNat, Nat.shiftRight_eq_div_pow]

theorem field_eq_zero (w : Word) (lo len : Nat) : w.extractLsb' lo len = 0 ↔ w.toNat / 2 ^ lo % 2 ^ len = 0 := by
  rw [← field_toNat, ← BitVec.toNat_inj]
  simp

/-- The opcode field as a number (30_encoding.md R71). -/
theorem opField_toNat (w : Word) : (opField w).toNat = w.toNat / 2 ^ 28 := by
  have := w.isLt
  rw [opField, field_toNat, Nat.mod_eq_of_lt]
  omega

end Sys2Proof
end

