-- ==== Sys2Proof/Laws/PerInstr.lean ====
section
/-! SUPPORT. Facts about every instruction as syntax, one lemma per constructor. -/

namespace Sys2Proof

/-- The opcode of each command (30_encoding.md R72). -/
def opcodeOf : Instr → Nat
  | .init => 0x1
  | .declogp _ => 0x2
  | .decicdf _ _ => 0x3
  | .lutrd _ => 0x4

namespace Laws.EncodeOpcode

/-- The word's opcode field is the command's opcode (30_encoding.md R71, R72). -/
def Statement (i : Instr) : Prop := (opField (encode i)).toNat = opcodeOf i

theorem init : Statement .init := rfl

theorem declogp (logp : BitVec 5) : Statement (.declogp logp) := by
  have := logp.isLt
  rw [Statement, opField_toNat, encode_declogp_toNat, opcodeOf]
  omega

theorem decicdf (tbase : Addr) (nsym : BitVec 8) : Statement (.decicdf tbase nsym) := by
  have := tbase.isLt
  have := nsym.isLt
  rw [Statement, opField_toNat, encode_decicdf_toNat, opcodeOf]
  omega

theorem lutrd (idx : BitVec 8) : Statement (.lutrd idx) := by
  have := idx.isLt
  rw [Statement, opField_toNat, encode_lutrd_toNat, opcodeOf]
  omega

end Laws.EncodeOpcode

end Sys2Proof
end

