-- ==== Sys2Proof/Laws/Step.lean ====
section
/-! SUPPORT. One equation of `step` for each case of `BUSY` and of the host's next step, and what a step from `BUSY = 0` can do. -/

namespace Sys2Proof.Machine

variable {s t : State} {f : InFlight} {h : HostStep} {q : List HostStep}

theorem step_idle_nil (hi : s.inFlight = none) (hq : s.host = []) : step s = .next s := by
  cases s; simp_all [step, runStep]

theorem step_idle_cons (hi : s.inFlight = none) (hq : s.host = h :: q) : step s = idleStep h { s with host := q } := by
  cases s; simp_all [step, runStep]

theorem step_busy (hf : s.inFlight = some f) : step s = busyStep f s := by
  simp [step, runStep, hf]

/-- Completing a command just accepted, whatever it has taken so far, is executing it. -/
theorem completeInFlight_acceptCommand (w : Word) (n : Nat) (hi : s.inFlight = none) (hn : n ≤ s.stream.length) :
    completeInFlight { command := w, delivered := s.stream.take n, byteRequest := false, tableRead := none }
      (acceptCommand w n s) = executeWord w s := by
  cases s
  simp_all [completeInFlight, beforeCommand, acceptCommand]

/-- Executing a word leaves alone what a command leaves alone. -/
theorem executeWord_coreStep {w : Word} (he : executeWord w s = .next t) : CoreStep s t := by
  unfold executeWord at he
  split at he
  · cases he
    exact ⟨rfl, rfl, rfl, rfl, (CoreStep.refl s).source⟩
  · exact exec_coreStep he

/-- Executing a word stops on a malformed table alone (42_symbol_decode.md R129). -/
theorem executeWord_answers (w : Word) (s : State) :
    (∃ t, executeWord w s = .next t) ∨
    (executeWord w s = .refused .malformedTable ∧ ∃ tbase nsym, decodeWord w = .legal (.decicdf tbase nsym) ∧ Live s ∧
      ¬ TableOk (entries s.table tbase) nsym.toNat) := by
  unfold executeWord
  split
  · exact .inl ⟨_, rfl⟩
  · next i hi =>
    rcases exec_answers i s with hn | ⟨hr, tbase, nsym, rfl, hl, ht⟩
    · exact .inl hn
    · exact .inr ⟨hr, tbase, nsym, hi, hl, ht⟩

/-- A reset inside a command is a step where the command is one. -/
theorem resetDuring_next {w : Word} (n : Nat) (he : executeWord w s = .next t) :
    resetDuring w n s = .next (applyReset (acceptCommand w (min n (t.fetched - s.fetched)) s)) := by
  simp [resetDuring, he]

theorem resetDuring_refused {w : Word} (n : Nat) {r : Refusal} (he : executeWord w s = .refused r) :
    resetDuring w n s = .refused r := by
  simp [resetDuring, he]

/-- A host step taken while `BUSY = 0` leaves the rest of the host's steps, and `BUSY` is 0 after it. -/
theorem idleStep_host (he : idleStep h s = .next t) (hi : s.inFlight = none) : t.host = s.host ∧ t.inFlight = none := by
  cases h with
  | command w => exact ⟨(executeWord_coreStep he).host, (executeWord_coreStep he).inFlight.trans hi⟩
  | setStream bytes => cases he; exact ⟨rfl, hi⟩
  | writeTable a v => cases he; exact ⟨rfl, hi⟩
  | readReg a => cases he; rw [readPort_eq]; exact ⟨rfl, hi⟩
  | reset => cases he; exact ⟨rfl, rfl⟩
  | resetDuring w n =>
    rcases executeWord_answers w s with ⟨u, hu⟩ | ⟨hu, -⟩
    · rw [show idleStep (.resetDuring w n) s = _ from resetDuring_next n hu] at he
      cases he
      exact ⟨rfl, rfl⟩
    · rw [show idleStep (.resetDuring w n) s = _ from resetDuring_refused n hu] at he
      cases he

end Sys2Proof.Machine
end

