-- ==== Sys2Proof/Laws/Run.lean ====
section
/-! SUPPORT. The equations of a run, one for each way its first step can go. -/

namespace Sys2Proof.Machine

variable {s t : State} {fuel : Nat} {h : HostStep} {q : List HostStep}

theorem runEnded_iff : runEnded s = true ↔ s.inFlight = none ∧ ∀ h ∈ s.host, h.issues = false := by
  simp [runEnded, State.busy]

theorem HostStep.issues_of_completes (hc : h.completes = true) : h.issues = true := by
  cases h <;> simp_all [completes, issues]

theorem runSteps_ended (fuel : Nat) (hs : runEnded s = true) :
    runSteps fuel s = .next { last := s, seen := { ports := [], taken := s.fetched } } := by
  cases fuel <;> simp [runSteps, hs]

theorem runSteps_next (hs : runEnded s = false) (ht : step s = .next t) {e : RunEnd} (he : runSteps fuel t = .next e) :
    runSteps (fuel + 1) s = .next (if completesNext s then e.after (observe t) else e) := by
  simp [runSteps, hs, ht, he]

theorem runSteps_refused_later (hs : runEnded s = false) (ht : step s = .next t) {r : Refusal}
    (he : runSteps fuel t = .refused r) : runSteps (fuel + 1) s = .refused r := by
  simp [runSteps, hs, ht, he]

theorem runSteps_refused (hs : runEnded s = false) {r : Refusal} (ht : step s = .refused r) :
    runSteps (fuel + 1) s = .refused r := by
  simp [runSteps, hs, ht]

theorem completesNext_idle (hi : s.inFlight = none) (hq : s.host = h :: q) : completesNext s = h.completes := by
  simp [completesNext, hi, hq]

@[simp] theorem RunEnd.after_last (o : Observation) (e : RunEnd) : (e.after o).last = e.last := rfl
@[simp] theorem RunEnd.after_taken (o : Observation) (e : RunEnd) : (e.after o).seen.taken = e.seen.taken := rfl
@[simp] theorem RunEnd.after_ports (o : Observation) (e : RunEnd) : (e.after o).seen.ports = o :: e.seen.ports := rfl

end Sys2Proof.Machine
end

