-- ==== Sys2Proof/Laws/Table.lean ====
section
/-! SUPPORT. The table memory: every operation keeps the canonical form, a read after a write gives what was written, and
equal memories are equal data. -/

namespace Sys2Proof.Machine.TableMem

@[simp] theorem readAt_nil (a : Nat) : readAt [] a = unlisted := rfl

@[simp] theorem readAt_cons (k a : Nat) (v : Word) (m : TableMem) :
    readAt ((k, v) :: m) a = if k = a then v else readAt m a := rfl

theorem wfFrom_cons {lo k : Nat} {v : Word} {m : TableMem} :
    wfFrom lo ((k, v) :: m) = true ↔
      lo ≤ k ∧ k ≤ Config.addrMax ∧ v ≠ unlisted ∧ wfFrom (k + 1) m = true := by
  simp [wfFrom, and_assoc]

theorem wfFrom_mono {lo lo' : Nat} {m : TableMem} (h : lo' ≤ lo) (hw : wfFrom lo m = true) : wfFrom lo' m = true := by
  cases m with
  | nil => rfl
  | cons p m =>
    obtain ⟨k, v⟩ := p
    rw [wfFrom_cons] at hw ⊢
    exact ⟨by omega, hw.2⟩

/-- Below the least key allowed nothing is listed. -/
theorem readAt_below {lo a : Nat} {m : TableMem} (hw : wfFrom lo m = true) (h : a < lo) : readAt m a = unlisted := by
  induction m generalizing lo with
  | nil => rfl
  | cons p m ih =>
    obtain ⟨k, v⟩ := p
    rw [wfFrom_cons] at hw
    rw [readAt_cons, if_neg (by omega), ih hw.2.2.2 (by omega)]

theorem wfFrom_writeAt {lo a : Nat} {m : TableMem} (v : Word) (hw : wfFrom lo m = true) (hlo : lo ≤ a)
    (ha : a ≤ Config.addrMax) : wfFrom lo (writeAt m a v) = true := by
  induction m generalizing lo with
  | nil =>
    by_cases hv : v = unlisted
    · simp [writeAt, hv, wfFrom]
    · simp [writeAt, hv, wfFrom, hlo, ha]
  | cons p m ih =>
    obtain ⟨k, x⟩ := p
    have hw' := wfFrom_cons.mp hw
    unfold writeAt
    split
    · split
      · exact hw
      · next hv => exact wfFrom_cons.mpr ⟨hlo, ha, hv, wfFrom_cons.mpr ⟨by omega, hw'.2⟩⟩
    · split
      · split
        · exact wfFrom_mono (by omega) hw'.2.2.2
        · next hv => exact wfFrom_cons.mpr ⟨hw'.1, hw'.2.1, hv, hw'.2.2.2⟩
      · exact wfFrom_cons.mpr ⟨hw'.1, hw'.2.1, hw'.2.2.1, ih hw'.2.2.2 (by omega)⟩

theorem readAt_writeAt {lo : Nat} {m : TableMem} (a b : Nat) (v : Word) (hw : wfFrom lo m = true) :
    readAt (writeAt m a v) b = if a = b then v else readAt m b := by
  induction m generalizing lo with
  | nil =>
    by_cases hv : v = unlisted <;> by_cases hab : a = b <;> simp [writeAt, hv, hab]
  | cons p m ih =>
    obtain ⟨k, x⟩ := p
    have hw' := wfFrom_cons.mp hw
    unfold writeAt
    split
    · next hak =>
      split
      · next hv =>
        by_cases hab : a = b
        · subst hab
          rw [readAt_cons, if_neg (by omega), readAt_below hw'.2.2.2 (by omega), if_pos rfl, hv]
        · rw [if_neg hab]
      · by_cases hab : a = b <;> simp [hab]
    · split
      · next hak =>
        subst hak
        split
        · next hv =>
          by_cases hab : a = b
          · subst hab
            rw [readAt_below hw'.2.2.2 (by omega), if_pos rfl, hv]
          · simp [hab]
        · by_cases hab : a = b <;> simp [hab]
      · next hka hne =>
        rw [readAt_cons, ih hw'.2.2.2, readAt_cons]
        by_cases hkb : k = b
        · simp [hkb, show ¬ a = b by omega]
        · simp [hkb]

/-- Two canonical memories that read the same at every address are the same list. -/
theorem eq_of_readAt {lo lo' : Nat} {m m' : TableMem} (hw : wfFrom lo m = true) (hw' : wfFrom lo' m' = true)
    (h : ∀ a, a ≤ Config.addrMax → readAt m a = readAt m' a) : m = m' := by
  induction m generalizing lo lo' m' with
  | nil =>
    cases m' with
    | nil => rfl
    | cons p m' =>
      obtain ⟨k, v⟩ := p
      rw [wfFrom_cons] at hw'
      have := h k hw'.2.1
      simp at this
      exact absurd this.symm hw'.2.2.1
  | cons p m ih =>
    obtain ⟨k, v⟩ := p
    rw [wfFrom_cons] at hw
    cases m' with
    | nil =>
      have := h k hw.2.1
      simp at this
      exact absurd this hw.2.2.1
    | cons p' m' =>
      obtain ⟨k', v'⟩ := p'
      rw [wfFrom_cons] at hw'
      have hk : k = k' := by
        rcases Nat.lt_trichotomy k k' with hlt | heq | hgt
        · have := h k hw.2.1
          rw [readAt_cons, if_pos rfl, readAt_cons, if_neg (by omega), readAt_below hw'.2.2.2 (by omega)] at this
          exact absurd this hw.2.2.1
        · exact heq
        · have := h k' hw'.2.1
          rw [readAt_cons, if_neg (by omega), readAt_below hw.2.2.2 (by omega), readAt_cons, if_pos rfl] at this
          exact absurd this.symm hw'.2.2.1
      subst hk
      have hv : v = v' := by simpa using h k hw.2.1
      subst hv
      rw [ih hw.2.2.2 hw'.2.2.2]
      intro a ha
      by_cases hka : k = a
      · subst hka
        rw [readAt_below hw.2.2.2 (by omega), readAt_below hw'.2.2.2 (by omega)]
      · simpa [hka] using h a ha

end Sys2Proof.Machine.TableMem

namespace Sys2Proof.Machine

theorem toNat_le_addrMax (a : Addr) : a.toNat ≤ Config.addrMax := by
  have := a.isLt
  simp only [Config.addrMax]
  omega

/-- A host write keeps the canonical form. -/
theorem tblWrite_wf {m : TableMem} (a : Addr) (v : Word) (h : TableMem.wf m = true) : TableMem.wf (tblWrite m a v) = true :=
  TableMem.wfFrom_writeAt v h (Nat.zero_le _) (toNat_le_addrMax a)

/-- Reset memory is in canonical form. -/
@[simp] theorem reset_table_wf : TableMem.wf State.reset.table = true := rfl

end Sys2Proof.Machine
end

