-- ==== Sys2Proof/Tests/Slice0.lean ====
section
/-! SUPPORT. Tests on one step with expected values from spec/95_test_vectors.md and the rules named, and for each obligation
with hypotheses a state and operands that meet all of them together. -/

namespace Sys2Proof.Tests

open Sys2Proof Sys2Proof.Machine

/-! ## Helpers -/

/-- The next state, where there is one. -/
def after : Host.Outcome State Fault Refusal → Option State
  | .next s => some s
  | .fault _ => none
  | .refused _ => none

/-- The refusal, where there is one. -/
def refusal : Host.Outcome State Fault Refusal → Option Refusal
  | .next _ => none
  | .fault _ => none
  | .refused r => some r

/-- The fault, where there is one. -/
def fault : Host.Outcome State Fault Refusal → Option Fault
  | .next _ => none
  | .fault r => some r
  | .refused _ => none

/-- T1 of 95_test_vectors.md: `[256, 26, 256]` at 0. -/
def tableT1 : TableMem := [(0, 256), (1, 26), (2, 256)]

/-- After reset with the source's stream and T1. -/
def fresh : State := { State.reset with stream := [0x0B, 0xE4, 0xC1, 0x36, 0xEC, 0xC5, 0x80], table := tableT1 }

/-- The state after V1 row 1. -/
def live : State :=
  { fresh with
    rng := 0x80000000, val := 0x7A0D9F64, cbyte := 0x36, ccnt := 7, state := .constructed
    stream := [0xEC, 0xC5, 0x80], fetched := 4 }

/-- `INIT` over bytes FF: `VAL` is 0 (V4 row 1). -/
def allOnes : State :=
  { live with val := 0, cbyte := 0xFF, stream := [0xFF, 0xFF, 0xFF, 0xFF, 0xFF, 0xFF, 0xFF, 0xFF] }

/-- V4 row 2, the smallest range with the most renormalization to come. -/
def allOnesRow2 : State :=
  { allOnes with rng := 0x01000000, state := .decoding, stream := [0xFF, 0xFF, 0xFF, 0xFF, 0xFF, 0xFF], fetched := 6 }

/-- `live` with a host step to come. -/
def liveWith (h : HostStep) : State := { live with host := [h] }

/-- A command in flight that has been delivered the byte EC. -/
def inFlightOf (w : Word) : InFlight := { command := w, delivered := [0xEC], byteRequest := true, tableRead := some 1 }

/-- A command word in flight. -/
def busyAt (w : Word) (q : List HostStep) : State :=
  { live with inFlight := some (inFlightOf w), host := q, stream := [0xC5, 0x80], fetched := 5 }

/-- `DECICDF 0x0000, 2` in flight. -/
def busyWith (q : List HostStep) : State := busyAt 0x30000002 q

/-! ## WellFormed: a term that each check refuses -/

theorem test_refuses_logp_24 : ¬ (Instr.declogp 24).WellFormed := by decide
theorem test_refuses_no_symbols : ¬ (Instr.decicdf 0 0).WellFormed := by decide
theorem test_refuses_window_that_wraps : ¬ (Instr.decicdf 0xFF01 255).WellFormed := by decide
theorem test_accepts_the_last_legal_operands :
    (Instr.declogp 23).WellFormed ∧ (Instr.decicdf 0xFF00 255).WellFormed ∧ (Instr.lutrd 255).WellFormed := by decide

/-! ## Decoding: each format's word, written out from its fields (30_encoding.md R73 to R77) -/

/-- R73: OP 0001, then 28 zeros. -/
theorem test_decode_init : decodeWord 0b00010000000000000000000000000000 = .legal .init := by decide

/-- R74: OP 0010, 23 zeros, LOGP 10101 = 21. -/
theorem test_decode_declogp : decodeWord 0b00100000000000000000000000010101 = .legal (.declogp 21) := by decide

/-- R75: OP 0011, 0000, TBASE 1010010100001111 = 0xA50F, NSYM 01101001 = 105. -/
theorem test_decode_decicdf : decodeWord 0b00110000101001010000111101101001 = .legal (.decicdf 0xA50F 105) := by decide

/-- R77: OP 0100, 20 zeros, IDX 11001010 = 202. -/
theorem test_decode_lutrd : decodeWord 0b01000000000000000000000011001010 = .legal (.lutrd 202) := by decide

/-- R71, R73 to R77: the lowest and the highest reserved-zero bit of each format. -/
theorem test_decode_reserved_bits :
    [0x10000001, 0x18000000, 0x20000020, 0x28000000, 0x31000002, 0x38000002, 0x40000100, 0x48000000].all
      (fun w => decodeWord w == .illegal .reservedBits) = true := by decide

/-- The words as spec/opcode_table.json numbers them. -/
theorem test_decode_table_words :
    decodeTableWord 32 0x10000000 = some .init ∧ decodeTableWord 32 0x30FF00FF = some (.decicdf 0xFF00 255) ∧
    decodeTableWord 32 0x30FF01FF = none ∧ decodeTableWord 32 0x50000000 = none := by decide

/-! ## One step of each command -/

/-- 41_lifecycle_init.md R119, V1 row 1, run by `step` from the word the host presents. -/
theorem test_init_known_vector :
    (after (step (fresh.withFetchWord 32 0x10000000))).map
      (fun t => (t.rng, t.val, curWord t, statusWord t, t.result, t.fetched)) =
    some (0x80000000, 0x7A0D9F64, 0x736, 0x01, 0, 4) := by decide +kernel

/-- V2 row 1: one byte is too few. -/
theorem test_init_single_byte :
    (after (exec .init { fresh with stream := [0x0B] })).map (fun t => (statusWord t, t.result, t.fetched)) =
    some (0x13, 0, 1) := by decide +kernel

/-- 95_test_vectors.md 2.3 row 2: `VAL = scale` gives 0. -/
theorem test_declogp_boundary_is_zero :
    (after (exec (.declogp 1) { live with val := 0x40000000, cbyte := 0xFE })).map
      (fun t => (t.rng, t.val, t.result, curWord t, statusWord t, t.fetched)) =
    some (0x40000000, 0, 0, 0x7FE, 0x02, 4) := by decide +kernel

/-- V4 row 3: `logp` 23 and three bytes of renormalization. -/
theorem test_declogp_three_steps :
    (after (exec (.declogp 23) allOnesRow2)).map (fun t => (t.rng, t.val, t.result, curWord t, t.fetched)) =
    some (0x02000000, 0, 1, 0x7FF, 9) := by decide +kernel

/-- V1 row 6, the table T3 at 0x20. -/
theorem test_decicdf_known_vector :
    (after (exec (.decicdf 0x20 8)
      { live with
        rng := 0x03980000, val := 0x00E59F64, state := .decoding
        table := [(0x20, 256), (0x21, 32), (0x22, 64), (0x23, 96), (0x24, 128), (0x25, 160), (0x26, 192), (0x27, 224),
          (0x28, 256)] })).map
      (fun t => (t.rng, t.val, t.result, curWord t, statusWord t, t.fetched)) =
    some (0x73000000, 0x729F6489, 6, 0x7EC, 0x02, 5) := by decide +kernel

/-- 42_symbol_decode.md R130: the clamp, and the remainder of the division left in `RNG`. -/
theorem test_decicdf_clamp :
    (after (exec (.decicdf 0x30 3)
      { live with val := 0x7FFFFFFF, table := [(0x30, 3), (0x31, 1), (0x32, 2), (0x33, 3)] })).map
      (fun t => (t.rng, t.val, t.result, t.fetched)) =
    some (0x2AAAAAAC, 0x2AAAAAAB, 0, 4) := by decide +kernel

/-- 40_lut.md R107, in state `EXHAUSTED` (V2): `STATUS` reads 0x03. -/
theorem test_lutrd_after_exhaustion :
    (after (exec (.lutrd 0x80) { fresh with state := .exhausted, err := .exhausted })).map
      (fun t => (t.result, statusWord t)) = some (0, 0x03) := by decide

/-- P3 row 5. -/
theorem test_lutrd_entry_one :
    (after (exec (.lutrd 1) live)).map (fun t => (t.result, t.rng, t.val, curWord t)) =
    some (0x00007F07, 0x80000000, 0x7A0D9F64, 0x736) := by decide

/-- 95_test_vectors.md 2.6: an illegal `DECICDF` in `UNINIT` is `ILLEGAL`, a legal one `NOT_READY`. -/
theorem test_illegal_before_not_ready :
    (after (step (fresh.withFetchWord 32 0x30000100))).map statusWord = some 0x20 ∧
    (after (step (fresh.withFetchWord 32 0x30000002))).map statusWord = some 0x30 := by decide +kernel

/-- 42_symbol_decode.md R129, 95_test_vectors.md 2.4: tables `[0, 0]` and `[256, 300, 256]` have no step. -/
theorem test_malformed_tables :
    refusal (exec (.decicdf 0x80 1) live) = some .malformedTable ∧
    refusal (exec (.decicdf 0 2) { live with table := [(0, 256), (1, 300), (2, 256)] }) = some .malformedTable := by
  decide +kernel

/-- 70_reset_and_hazards.md R191: reset keeps the stream, the bytes taken and the table. -/
theorem test_reset_keeps_the_platform :
    after (step (liveWith .reset)) = some { fresh with stream := [0xEC, 0xC5, 0x80], fetched := 4 } := by decide

/-! ## A state and operands that meet each obligation's hypotheses -/

theorem test_hyp_DecodeOfEncodeIsTheInstruction :
    Instr.init.WellFormed ∧ (Instr.declogp 23).WellFormed ∧ (Instr.decicdf 0xFF00 255).WellFormed ∧
    (Instr.decicdf 0xFFFE 1).WellFormed ∧ (Instr.lutrd 255).WellFormed := by decide

theorem test_hyp_DecodedWordIsWellFormedAndEncodesBack :
    decodeWord 0x10000000 = .legal .init ∧ decodeWord 0x20000017 = .legal (.declogp 23) ∧
    decodeWord 0x30FF00FF = .legal (.decicdf 0xFF00 255) ∧ decodeWord 0x400000FF = .legal (.lutrd 255) := by decide

theorem test_hyp_StepRunsTheDecodedCommand :
    (Idle (liveWith (.command 0x20000001)) ∧ (liveWith (.command 0x20000001)).host = .command 0x20000001 :: [] ∧
      decodeWord 0x20000001 = .legal (.declogp 1)) ∧ (Instr.declogp 23).WellFormed := by decide

theorem test_hyp_IllegalWordChangesErrAlone :
    Idle (liveWith (.command 0x20000018)) ∧ (liveWith (.command 0x20000018)).host = .command 0x20000018 :: [] ∧
    legalWord 0x20000018 = false := by decide

theorem test_hyp_ResetSetsTheRegistersAndNothingOutside : (busyWith [.reset]).host = .reset :: [] := by decide

theorem test_hyp_IdleBlockHoldsItsState : Idle live ∧ live.host = [] := by decide

theorem test_hyp_LutShiftIsTheSmallestShift :
    ((1 : Byte) ≠ 0 ∧ 6 < (lutShift 1).toNat) ∧ ((127 : Byte) ≠ 0 ∧ 0 < (lutShift 127).toNat) ∧ (255 : Byte) ≠ 0 := by
  decide

theorem test_hyp_LutContentsByRange :
    (0 : Byte).toNat = 0 ∧ (1 : Byte).toNat = 1 ∧ (2 ≤ (3 : Byte).toNat ∧ (3 : Byte).toNat ≤ 3) ∧
    (4 ≤ (7 : Byte).toNat ∧ (7 : Byte).toNat ≤ 7) ∧ (8 ≤ (15 : Byte).toNat ∧ (15 : Byte).toNat ≤ 15) ∧
    (16 ≤ (31 : Byte).toNat ∧ (31 : Byte).toNat ≤ 31) ∧ (32 ≤ (63 : Byte).toNat ∧ (63 : Byte).toNat ≤ 63) ∧
    (64 ≤ (127 : Byte).toNat ∧ (127 : Byte).toNat ≤ 127) ∧ 128 ≤ (128 : Byte).toNat := by decide

theorem test_hyp_RegisterReadsAnswerTheMap :
    ∀ a ∈ ([0, 1, 2, 3, 4, 5, 6, 7] : List (BitVec 3)),
      Idle (liveWith (.readReg a)) ∧ (liveWith (.readReg a)).host = .readReg a :: [] := by decide

theorem test_hyp_ReadsWhileBusyKeepTheBlock :
    (busyWith [.readReg 0]).inFlight = some (inFlightOf 0x30000002) ∧
    (busyWith [.readReg 0]).host = .readReg 0 :: [] ∧ (busyWith [.readReg 4]).host = .readReg 4 :: [] := by decide

theorem test_hyp_ReadBitsTakesTheNextBits :
    25 ≤ (unreadBits live).length ∧ (unreadBits live).length < 26 ∧
    7 ≤ (unreadBits fresh).length := by decide

theorem test_hyp_ChunkStraddlesTwoBytes : CursorOk live ∧ live.stream = 0xEC :: [0xC5, 0x80] := by decide

theorem test_hyp_NormalizeInClosedForm :
    (1 ≤ ({ live with rng := 1, val := 0 } : State).rng.toNat ∧
      ({ live with rng := 1, val := 0 } : State).rng.toNat ≤ 2 ^ 31 ∧
      ({ live with rng := 1, val := 0 } : State).val.toNat < ({ live with rng := 1, val := 0 } : State).rng.toNat ∧
      CursorOk { live with rng := 1, val := 0 } ∧
      normSteps ({ live with rng := 1, val := 0 } : State).rng.toNat ≤
        ({ live with rng := 1, val := 0 } : State).stream.length) ∧
    (1 ≤ ({ live with rng := 0x800000, val := 0x7FFFFF, stream := [] } : State).rng.toNat ∧
      ({ live with rng := 0x800000, val := 0x7FFFFF, stream := [] } : State).rng.toNat ≤ 2 ^ 31 ∧
      ({ live with rng := 0x800000, val := 0x7FFFFF, stream := [] } : State).val.toNat <
        ({ live with rng := 0x800000, val := 0x7FFFFF, stream := [] } : State).rng.toNat ∧
      CursorOk { live with rng := 0x800000, val := 0x7FFFFF, stream := [] } ∧
      ({ live with rng := 0x800000, val := 0x7FFFFF, stream := [] } : State).stream.length <
        normSteps ({ live with rng := 0x800000, val := 0x7FFFFF, stream := [] } : State).rng.toNat) := by decide

theorem test_hyp_NormalizeFromZeroDrainsTheStream : ({ live with rng := 0 } : State).rng = 0 := by decide

theorem test_hyp_InitOnFourBytes :
    ({ fresh with stream := [0x0B, 0xE4, 0xC1, 0x36] } : State).stream = 0x0B :: 0xE4 :: 0xC1 :: 0x36 :: [] := by decide

theorem test_hyp_InitRunsOutBelowFourBytes : ({ fresh with stream := [1, 2, 3] } : State).stream.length < 4 := by decide

theorem test_hyp_DeclogpDecodesABit :
    (logpLegal 23 ∧ Live allOnesRow2 ∧ RangeOk allOnesRow2 ∧ CursorOk allOnesRow2 ∧
      allOnesRow2.val.toNat < allOnesRow2.rng.toNat / 2 ^ 23 ∧
      normSteps (allOnesRow2.rng.toNat / 2 ^ 23) ≤ allOnesRow2.stream.length) ∧
    (logpLegal 1 ∧ Live live ∧ RangeOk live ∧ CursorOk live ∧ live.rng.toNat / 2 ^ 1 ≤ live.val.toNat ∧
      normSteps (live.rng.toNat - live.rng.toNat / 2 ^ 1) ≤ live.stream.length) := by decide

theorem test_hyp_DeclogpRunsOut :
    logpLegal 23 ∧ Live { allOnesRow2 with stream := [0xFF, 0xFF] } ∧ RangeOk { allOnesRow2 with stream := [0xFF, 0xFF] } ∧
    CursorOk { allOnesRow2 with stream := [0xFF, 0xFF] } ∧
    ({ allOnesRow2 with stream := [0xFF, 0xFF] } : State).stream.length < normSteps (allOnesRow2.rng.toNat / 2 ^ 23) := by
  decide

theorem test_hyp_DeclogpZeroAlwaysOne : Live live ∧ RangeOk live := by decide

/-- T1 as numbers: a position that a symbol holds, and one, at the total, that none does. -/
theorem test_hyp_SearchReturnsTheFirstAbove :
    1 ≤ 2 ∧ (0 < 2 ∧ 25 < entries tableT1 0 (0 + 1)) ∧
    (∀ j, j < 2 → entries tableT1 0 (j + 1) ≤ 256) ∧ TableOk (entries tableT1 0) 2 ∧ 255 < entries tableT1 0 0 :=
  ⟨by decide, by decide, by decide, (tableWellFormed_iff _ _).mp (by decide), by decide⟩

theorem test_hyp_TableCheckIsWellFormedness :
    tableWellFormed (entries tableT1 0) 2 = true ∧ TableOk (entries tableT1 0) 2 ∧
    tableWellFormed (entries tableT1 0) 1 = false :=
  ⟨by decide, (tableWellFormed_iff _ _).mp (by decide), by decide⟩

theorem test_hyp_WellFormedTableDecodesInRange : TableOk (entries live.table 0) 2 ∧ RangeOk live :=
  ⟨(tableWellFormed_iff _ _).mp (by decide), by decide⟩

theorem test_hyp_DecicdfDecodesASymbol :
    nsymLegal 2 ∧ windowLegal 0 2 ∧ Live live ∧ RangeOk live ∧ CursorOk live ∧ TableOk (entries live.table 0) 2 ∧
    SymbolHolds (entries live.table 0) 2 (icdfPosition (entries live.table 0 0) live) 0 ∧
    normSteps (icdfRange (entries live.table 0) 0 live) ≤ live.stream.length :=
  ⟨by decide, by decide, by decide, by decide, by decide, (tableWellFormed_iff _ _).mp (by decide),
    ⟨by decide, by decide, by decide⟩, by decide⟩

/-- The table T11 of 95_test_vectors.md at 0: an interval of width 1 needs two bytes, and one is left. -/
def shortOfAByte : State :=
  { live with stream := [0xEC], table := [(0, 65536), (1, 3044), (2, 3045), (3, 65536)] }

theorem test_hyp_DecicdfRunsOut :
    nsymLegal 3 ∧ windowLegal 0 3 ∧ Live shortOfAByte ∧ RangeOk shortOfAByte ∧ CursorOk shortOfAByte ∧
    TableOk (entries shortOfAByte.table 0) 3 ∧
    SymbolHolds (entries shortOfAByte.table 0) 3 (icdfPosition (entries shortOfAByte.table 0 0) shortOfAByte) 1 ∧
    shortOfAByte.stream.length < normSteps (icdfRange (entries shortOfAByte.table 0) 1 shortOfAByte) :=
  ⟨by decide, by decide, by decide, by decide, by decide, (tableWellFormed_iff _ _).mp (by decide),
    ⟨by decide, by decide, by decide⟩, by decide⟩

theorem test_hyp_DecicdfRefusesExactlyMalformedTables :
    (nsymLegal 1 ∧ windowLegal 0xFFFE 1 ∧ Live live ∧ ¬ TableOk (entries live.table 0xFFFE) 1) ∧
    (nsymLegal 2 ∧ windowLegal 0 2 ∧ TableOk (entries live.table 0) 2) :=
  ⟨⟨by decide, by decide, by decide, fun h => absurd ((tableWellFormed_iff _ _).mpr h) (by decide)⟩,
    by decide, by decide, (tableWellFormed_iff _ _).mp (by decide)⟩

/-- A table memory that differs from T1 next to the window `0 .. 2`. -/
theorem test_hyp_DecicdfReadsOnlyItsWindow :
    ∀ a : Addr, inWindow 0 2 a = true → Live live → tblRead ((3, 7) :: []) a = tblRead [] a := by
  intro a h _
  simp only [inWindow, Bool.and_eq_true, decide_eq_true_eq] at h
  simp only [tblRead, TableMem.readAt]
  rw [if_neg]
  have := h.2
  simp at this
  omega

theorem test_hyp_OneSymbolTableChangesNothing :
    windowLegal 0xFFFE 1 ∧ Live { live with table := [(0xFFFE, 65536), (0xFFFF, 65536)] } ∧
    RangeOk { live with table := [(0xFFFE, 65536), (0xFFFF, 65536)] } ∧
    1 ≤ (tblRead [(0xFFFE, 65536), (0xFFFF, 65536)] 0xFFFE).toNat ∧
    (tblRead [(0xFFFE, 65536), (0xFFFF, 65536)] 0xFFFE).toNat ≤ 65536 ∧
    tblRead [(0xFFFE, 65536), (0xFFFF, 65536)] (0xFFFE + 1) = tblRead [(0xFFFE, 65536), (0xFFFF, 65536)] 0xFFFE := by
  decide

theorem test_hyp_DecodeBeforeInitIsNotReady :
    fresh.state = .uninit ∧ logpLegal 23 ∧ nsymLegal 255 ∧ windowLegal 0xFF00 255 := by decide

theorem test_hyp_DecodeAfterExhaustionReportsIt :
    ({ live with state := .exhausted } : State).state = .exhausted ∧ logpLegal 23 ∧ nsymLegal 255 ∧
    windowLegal 0xFF00 255 := by decide

/-- Every clause of the table of transitions has a command that meets it and completes. -/
theorem test_hyp_StateTransitions :
    (4 ≤ fresh.stream.length ∧ ∃ t, exec .init fresh = .next t) ∧
    (({ fresh with stream := [] } : State).stream.length < 4 ∧ ∃ t, exec .init { fresh with stream := [] } = .next t) ∧
    (∃ t, exec (.lutrd 0) fresh = .next t) ∧
    (¬ (Instr.declogp 24).WellFormed ∧ ∃ t, exec (.declogp 24) live = .next t) ∧
    ((Instr.declogp 1).WellFormed ∧ fresh.state = .uninit ∧ ∃ t, exec (.declogp 1) fresh = .next t) ∧
    ((Instr.declogp 1).WellFormed ∧ ∃ t, exec (.declogp 1) { live with state := .exhausted } = .next t) ∧
    ((Instr.decicdf 0 2).WellFormed ∧ Live live ∧ ∃ t, exec (.decicdf 0 2) live = .next t) :=
  ⟨⟨by decide, _, rfl⟩, ⟨by decide, _, rfl⟩, ⟨_, rfl⟩, ⟨by decide, _, rfl⟩, ⟨by decide, rfl, _, rfl⟩,
    ⟨by decide, _, rfl⟩, ⟨by decide, by decide, _, rfl⟩⟩

theorem test_hyp_ConstructedAndDecodingBehaveAlike :
    Instr.init.WellFormed ∧ (Instr.declogp 23).WellFormed ∧ (Instr.decicdf 0xFF00 255).WellFormed ∧
    (Instr.lutrd 255).WellFormed := by decide

theorem test_hyp_CommandsLeaveTheRestAlone :
    (∃ t, exec .init fresh = .next t ∧ Instr.init = .init ∧ t.state ≠ .exhausted) ∧
    (∃ t, exec (.declogp 1) fresh = .next t ∧ t.err ≠ .ok) ∧ (∃ t, exec (.decicdf 0 2) live = .next t) :=
  ⟨⟨_, rfl, rfl, by decide⟩, ⟨_, rfl, by decide⟩, ⟨_, rfl⟩⟩

theorem test_hyp_PreciseFailuresChangeErrAlone :
    (∃ t, exec (.declogp 24) live = .next t ∧ t.err = .illegal) ∧
    (∃ t, exec (.declogp 1) fresh = .next t ∧ t.err = .notReady) ∧
    (∃ t, exec (.decicdf 0 2) { live with state := .exhausted } = .next t ∧ t.err = .exhausted ∧
      ({ live with state := .exhausted } : State).state = .exhausted ∧ Instr.decicdf 0 2 ≠ .init) :=
  ⟨⟨_, rfl, rfl⟩, ⟨_, rfl, rfl⟩, ⟨_, rfl, rfl, rfl, by decide⟩⟩

theorem test_hyp_ByteRequestsAreInOrderAndBounded :
    (∃ t, exec .init fresh = .next t) ∧ CoderOk fresh ∧ (∃ t, exec (.declogp 23) allOnesRow2 = .next t) ∧
    CoderOk allOnesRow2 ∧ (∃ t, exec (.lutrd 0) live = .next t) :=
  ⟨⟨_, rfl⟩, by decide, ⟨_, rfl⟩, by decide, ⟨_, rfl⟩⟩

theorem test_hyp_EveryStepKeepsTheInvariant :
    Inv (liveWith (.command 0x20000001)) ∧ ∃ t, step (liveWith (.command 0x20000001)) = .next t :=
  ⟨by decide, _, rfl⟩

theorem test_hyp_EveryStepKeepsBusyZero :
    Idle (liveWith (.readReg 0)) ∧ ∃ t, step (liveWith (.readReg 0)) = .next t := ⟨by decide, _, rfl⟩

theorem test_hyp_OnlyMalformedTablesStopARun :
    Idle (liveWith (.command 0x30008001)) ∧ refusal (step (liveWith (.command 0x30008001))) = some .malformedTable := by
  decide

/-- A second state with the same coder, stream and table, and everything else different. -/
theorem test_hyp_SameInputsSameResults :
    let s' : State := { live with err := .illegal, fetched := 9, regRdata := 5, host := [.reset], draws := 3 }
    s'.rng = live.rng ∧ s'.val = live.val ∧ s'.cbyte = live.cbyte ∧ s'.ccnt = live.ccnt ∧ s'.state = live.state ∧
    s'.result = live.result ∧ s'.stream = live.stream ∧ (∀ a : Addr, tblRead s'.table a = tblRead live.table a) ∧
    ∃ t, exec (.decicdf 0 2) live = .next t ∧ t.state ≠ .exhausted :=
  ⟨rfl, rfl, rfl, rfl, rfl, rfl, rfl, fun _ => rfl, _, rfl, by decide⟩

theorem test_hyp_HostStepsWhileIdle :
    (Idle (liveWith (.setStream [1])) ∧ (liveWith (.setStream [1])).host = .setStream [1] :: []) ∧
    (Idle (liveWith (.writeTable 0xFFFF 1)) ∧ (liveWith (.writeTable 0xFFFF 1)).host = .writeTable 0xFFFF 1 :: [] ∧
      TableMem.wf (liveWith (.writeTable 0xFFFF 1)).table = true) := by decide

/-- With `DECICDF 0x0010, 8` in flight: the entries below its window, at both its ends and above it, then the other clauses. -/
theorem test_hyp_HostStepsWhileBusy :
    (∀ q, (busyAt 0x30001008 q).inFlight = some (inFlightOf 0x30001008)) ∧
    decodeWord 0x30001008 = .legal (.decicdf 0x10 8) ∧
    (∀ a ∈ ([0x0F, 0x10, 0x18, 0x19] : List Addr), (busyAt 0x30001008 [.writeTable a 9]).host = .writeTable a 9 :: []) ∧
    (0x0F : Addr).toNat < (0x10 : Addr).toNat ∧
    ((0x10 : Addr).toNat ≤ (0x10 : Addr).toNat ∧ (0x10 : Addr).toNat ≤ (0x10 : Addr).toNat + (8 : BitVec 8).toNat) ∧
    ((0x10 : Addr).toNat ≤ (0x18 : Addr).toNat ∧ (0x18 : Addr).toNat ≤ (0x10 : Addr).toNat + (8 : BitVec 8).toNat) ∧
    (0x10 : Addr).toNat + (8 : BitVec 8).toNat < (0x19 : Addr).toNat ∧
    (∀ tbase nsym, decodeWord (inFlightOf 0x20000001).command ≠ .legal (.decicdf tbase nsym)) ∧
    (busyAt 0x20000001 [.writeTable 0 9]).host = .writeTable 0 9 :: [] ∧
    (busyAt 0x30001008 [.setStream []]).host = .setStream [] :: [] ∧
    (busyAt 0x20000001 []).host = [] ∧ (busyAt 0x20000001 [.command 0]).host = .command 0 :: [] ∧
    (busyAt 0x20000001 [.resetDuring 0 1]).host = .resetDuring 0 1 :: [] ∧
    decodeWord (inFlightOf 0x20000001).command = .legal (.declogp 1) ∧
    legalWord (inFlightOf 0x20000018).command = false := by
  refine ⟨fun _ => rfl, by decide, fun _ _ => rfl, by decide, by decide, by decide, by decide, ?_, by decide⟩
  intro tbase nsym h
  rw [show decodeWord (inFlightOf 0x20000001).command = .legal (.declogp 1) by decide] at h
  cases h

/-- The faults are those of 20_memory.md R62 and log 9. -/
theorem test_busy_host_steps_stop :
    fault (step (busyWith [.writeTable 2 9])) = some .tableWriteInRunningWindow ∧
    fault (step (busyWith [.setStream []])) = some .streamChangedWhileBusy := by decide

theorem test_hyp_TableReadAfterWrite : TableMem.wf tableT1 = true ∧ (0 : Addr) ≠ 0xFFFF := by decide

theorem test_hyp_EqualTablesAreEqualLists :
    TableMem.wf tableT1 = true ∧ TableMem.wf (tblWrite (tblWrite tableT1 7 1) 7 0) = true ∧
    (∀ a : Addr, tblRead tableT1 a = tblRead (tblWrite (tblWrite tableT1 7 1) 7 0) a) :=
  ⟨by decide, by decide, fun _ => rfl⟩

theorem test_hyp_CoresAreIsolated :
    ({ cores := [fresh, liveWith (.command 0x20000001)] } : Platform).cores[1]? =
      some (liveWith (.command 0x20000001)) ∧
    (∀ a v q, (liveWith (.command 0x20000001)).host ≠ .writeTable a v :: q) ∧
    (∃ p, Platform.stepCore 1 { cores := [fresh, liveWith (.command 0x20000001)] } = .next p) ∧ 0 ≠ 1 ∧
    State.reset ∈ (Platform.reset 2).cores ∧ 1 ≤ 2 :=
  ⟨rfl, fun _ _ _ h => (by cases h), ⟨_, rfl⟩, by decide, by decide, by decide⟩

/-- 70_reset_and_hazards.md R191: a reset when `INIT` has taken two bytes, and one after all the four it takes (R114). -/
theorem test_reset_during_init :
    (after (step { fresh with host := [.resetDuring 0x10000000 2] })).map
      (fun t => (t.stream, t.fetched, t.rng, curWord t, statusWord t)) =
    some ([0xC1, 0x36, 0xEC, 0xC5, 0x80], 2, 0, 0x800, 0) ∧
    (after (step { fresh with host := [.resetDuring 0x10000000 9] })).map (fun t => (t.stream, t.fetched)) =
    some ([0xEC, 0xC5, 0x80], 4) := by decide +kernel

theorem test_hyp_ResetDuringACommandKeepsItsBytesConsumed :
    Idle { fresh with host := [.resetDuring 0x10000000 2] } ∧
    ({ fresh with host := [.resetDuring 0x10000000 2] } : State).host = .resetDuring 0x10000000 2 :: [] ∧
    ∃ t, executeWord 0x10000000 { { fresh with host := [.resetDuring 0x10000000 2] } with host := [] } = .next t :=
  ⟨rfl, rfl, _, rfl⟩

/-- The observation of a run of one command, without and with an unspecified outcome: V1 row 1 and V2 row 1. -/
theorem test_run_observation :
    (match run { fresh with host := [.command 0x10000000] } with
      | .next e => some e.seen | .fault _ => none | .refused _ => none) =
    some { ports := [{ status := 0x01, result := 0, rng := some 0x80000000, val := some 0x7A0D9F64, cur := some 0x736 }],
           taken := 4 } ∧
    (match run { fresh with stream := [0x0B], host := [.command 0x10000000] } with
      | .next e => some e.seen | .fault _ => none | .refused _ => none) =
    some { ports := [{ status := 0x13, result := 0, rng := none, val := none, cur := none }], taken := 1 } := by
  decide +kernel

theorem test_hyp_ObservationShowsWhatIsDetermined :
    live.state ≠ .exhausted ∧ ({ live with state := .exhausted } : State).state = .exhausted := by decide

theorem test_hyp_RunEndsAfterItsLastCommand : Idle (liveWith (.command 0x20000001)) := by decide

/-- In an active lifetime, and in `EXHAUSTED` with other coder registers. -/
theorem test_hyp_RunShowsNoFreeValue :
    (Idle live ∧ SameButFreeValues live { live with regRdata := 7, draws := 9 }) ∧
    (Idle { live with state := .exhausted } ∧
      SameButFreeValues { live with state := .exhausted }
        { live with state := .exhausted, rng := 1, val := 2, cbyte := 3, ccnt := 4, draws := 1 }) :=
  ⟨⟨rfl, rfl, fun _ => ⟨rfl, rfl, rfl, rfl⟩⟩, rfl, rfl, fun h => absurd rfl h⟩

end Sys2Proof.Tests
end

section
/-! PROOFS. The decoder inverts the encoder (30_encoding.md R73 to R78), and a step at which the host presents a legal word
is that word's command (60_exceptions.md R166). -/

namespace Sys2Proof

/-- A field of a word is the vector that has the field's number. -/
theorem field_eq_of_toNat {w : Word} {lo len : Nat} {x : BitVec len} (h : w.toNat / 2 ^ lo % 2 ^ len = x.toNat) :
    w.extractLsb' lo len = x :=
  BitVec.eq_of_toNat_eq ((field_toNat w lo len).trans h)

/-! ### The opcode selects the format (30_encoding.md R72) -/

theorem decodeWord_of_opcode_one {w : Word} (h : (opField w).toNat = 1) : decodeWord w = decodeN w := by
  simp only [decodeWord, h]

theorem decodeWord_of_opcode_two {w : Word} (h : (opField w).toNat = 2) : decodeWord w = decodeL w := by
  simp only [decodeWord, h]

theorem decodeWord_of_opcode_three {w : Word} (h : (opField w).toNat = 3) : decodeWord w = decodeT w := by
  simp only [decodeWord, h]

theorem decodeWord_of_opcode_four {w : Word} (h : (opField w).toNat = 4) : decodeWord w = decodeX w := by
  simp only [decodeWord, h]

/-! ### Each format gives back the operands of its command -/

theorem decodeN_encode : decodeN (encode .init) = .legal .init := rfl

theorem decodeL_encode {logp : BitVec 5} (hl : logpLegal logp) :
    decodeL (encode (.declogp logp)) = .legal (.declogp logp) := by
  have hlt := logp.isLt
  have hzero : (encode (.declogp logp)).extractLsb' 5 23 = 0 := by
    rw [field_eq_zero, encode_declogp_toNat]
    omega
  have hlogp : (encode (.declogp logp)).extractLsb' 0 5 = logp := by
    apply field_eq_of_toNat
    rw [encode_declogp_toNat]
    omega
  rw [decodeL, if_pos hzero, hlogp, if_pos hl]

theorem decodeT_encode {tbase : Addr} {nsym : BitVec 8} (hn : nsymLegal nsym) (hw : windowLegal tbase nsym) :
    decodeT (encode (.decicdf tbase nsym)) = .legal (.decicdf tbase nsym) := by
  have hlt := tbase.isLt
  have hlt' := nsym.isLt
  have hzero : (encode (.decicdf tbase nsym)).extractLsb' 24 4 = 0 := by
    rw [field_eq_zero, encode_decicdf_toNat]
    omega
  have htbase : (encode (.decicdf tbase nsym)).extractLsb' 8 16 = tbase := by
    apply field_eq_of_toNat
    rw [encode_decicdf_toNat]
    omega
  have hnsym : (encode (.decicdf tbase nsym)).extractLsb' 0 8 = nsym := by
    apply field_eq_of_toNat
    rw [encode_decicdf_toNat]
    omega
  rw [decodeT, if_pos hzero, htbase, hnsym, if_pos hn, if_pos hw]

theorem decodeX_encode (idx : BitVec 8) : decodeX (encode (.lutrd idx)) = .legal (.lutrd idx) := by
  have hlt := idx.isLt
  have hzero : (encode (.lutrd idx)).extractLsb' 8 20 = 0 := by
    rw [field_eq_zero, encode_lutrd_toNat]
    omega
  have hidx : (encode (.lutrd idx)).extractLsb' 0 8 = idx := by
    apply field_eq_of_toNat
    rw [encode_lutrd_toNat]
    omega
  rw [decodeX, if_pos hzero, hidx]

/-- The decoder reads every well-formed command back from its word (30_encoding.md R73 to R78). -/
theorem decodeWord_encode {i : Instr} (h : i.WellFormed) : decodeWord (encode i) = .legal i := by
  cases i with
  | init => exact (decodeWord_of_opcode_one Laws.EncodeOpcode.init).trans decodeN_encode
  | declogp logp =>
    have hl : logpLegal logp := (wellFormed_declogp logp).mp h
    exact (decodeWord_of_opcode_two (Laws.EncodeOpcode.declogp logp)).trans (decodeL_encode hl)
  | decicdf tbase nsym =>
    obtain ⟨hn, hw⟩ := (wellFormed_decicdf tbase nsym).mp h
    exact (decodeWord_of_opcode_three (Laws.EncodeOpcode.decicdf tbase nsym)).trans (decodeT_encode hn hw)
  | lutrd idx => exact (decodeWord_of_opcode_four (Laws.EncodeOpcode.lutrd idx)).trans (decodeX_encode idx)

/-- A word presented whole, by its number, is that word (30_encoding.md R70). -/
theorem tableWord_toNat (w : Word) : tableWord 32 w.toNat = w := by
  rw [tableWord, Nat.mod_eq_of_lt w.isLt, BitVec.ofNat_toNat, BitVec.setWidth_eq]

namespace Machine

variable {s : State} {w : Word}

/-- A legal word is executed as its command (60_exceptions.md R166). -/
theorem executeWord_legal {i : Instr} (hd : decodeWord w = .legal i) : executeWord w s = exec i s := by
  rw [executeWord, hd]

/-- With `BUSY = 0`, the word the host presents is executed in that step (00_scope.md R8). -/
theorem step_command {q : List HostStep} (hi : Idle s) (hq : s.host = .command w :: q) :
    step s = executeWord w { s with host := q } :=
  step_idle_cons hi hq

/-- `withFetchWord` makes the word the next one executed, whatever was in flight (log 1). -/
theorem step_withFetchWord (s : State) (w : Word) :
    step (s.withFetchWord 32 w.toNat) = executeWord w { s with inFlight := none } := by
  rw [State.withFetchWord, tableWord_toNat]
  exact step_command rfl rfl

/-- Settles O5: the step is `executeWord` of the word presented, and a word that decodes is executed as its command; the
word of a well-formed command decodes to it. -/
theorem stepRunsTheDecodedCommand : Obligations.StepRunsTheDecodedCommand := by
  unfold Obligations.StepRunsTheDecodedCommand
  constructor
  · intro s w q i hi hq hd
    exact (step_command hi hq).trans (executeWord_legal hd)
  · intro s i hwf
    exact (step_withFetchWord s (encode i)).trans (executeWord_legal (decodeWord_encode hwf))

end Machine

end Sys2Proof
end

section
/-! PROOFS. The invariant (10_state.md R39, 43_normalize_bits.md R143, 41_lifecycle_init.md R116): a command leaves the coder of
an active lifetime in range, and every step keeps the invariant, with `BUSY` 0 or 1. -/

namespace Sys2Proof.Machine

variable {s t : State}

/-! ### The coder after a command -/

/-- A coder from which renormalization ends in range, or runs out of bytes (43_normalize_bits.md R147). -/
def Renormalizable (s : State) : Prop :=
  1 ≤ s.rng.toNat ∧ s.rng.toNat ≤ 2 ^ 31 ∧ s.val.toNat < s.rng.toNat ∧ CursorOk s

theorem renormalizable_loadCoder {rng val : Nat} (h1 : 1 ≤ rng) (h31 : rng ≤ 2 ^ 31) (hv : val < rng)
    (hc : CursorOk s) : Renormalizable (loadCoder rng val s) := by
  have hr : (loadCoder rng val s).rng.toNat = rng := toNat_ofNat_of_lt (by omega)
  have hval : (loadCoder rng val s).val.toNat = val := toNat_ofNat_of_lt (by omega)
  unfold Renormalizable
  rw [hr, hval]
  exact ⟨h1, h31, hv, hc⟩

theorem coderOk_of_exhausted (h : s.state = .exhausted) : CoderOk s := by
  rintro (hl | hl)
  · exact absurd (h.symm.trans hl) (by decide)
  · exact absurd (h.symm.trans hl) (by decide)

theorem completeInit_coderOk (hr : RangeOk s) (hc : CursorOk s) : CoderOk (completeInit s) := fun _ => ⟨hr, hc⟩

theorem completeDecode_coderOk (w : Word) (hr : RangeOk s) (hc : CursorOk s) : CoderOk (completeDecode w s) :=
  fun _ => ⟨hr, hc⟩

/-- A command that ends in a renormalization leaves its coder in range, or `STATE = EXHAUSTED`. -/
theorem finish_coderOk {complete : State → State} {u : State}
    (hcomplete : ∀ v, RangeOk v → CursorOk v → CoderOk (complete v)) (hu : Renormalizable u)
    (h : finish complete (normalize u) = .next t) : CoderOk t := by
  obtain ⟨h1, h31, hv, hc⟩ := hu
  rcases normalize_closed u h1 h31 hv hc with ⟨-, he, hrange, hcur⟩ | ⟨-, v, he, -⟩
  · rw [he] at h
    cases h
    exact hcomplete _ hrange hcur
  · rw [he] at h
    cases h
    exact coderOk_of_exhausted rfl

/-- `INIT` loads a coder of range 128 behind one unread bit (41_lifecycle_init.md R113, R114). -/
theorem execInit_coderOk (h : execInit s = .next t) : CoderOk t := by
  unfold execInit at h
  cases hs : s.stream with
  | nil =>
    rcases readBitsInto_spec Config.initBits 0 (emptyCursor s) with ⟨hn, -⟩ | ⟨-, u, he, -⟩
    · rw [length_unreadBits, emptyCursor_stream, emptyCursor_ccnt, hs] at hn
      exact absurd hn (by decide)
    · rw [readBits, he] at h
      cases h
      exact coderOk_of_exhausted rfl
  | cons b rest =>
    rw [Config.initBits, readBits_seven (emptyCursor s) b rest rfl hs] at h
    have hval : 127 - b.toNat / 2 < 128 := by omega
    exact finish_coderOk (fun _ => completeInit_coderOk)
      (renormalizable_loadCoder (by decide) (by decide) hval rfl) h

/-- `DECLOGP`'s scale is at least 1 from a coder in range (42_symbol_decode.md R134). -/
theorem logpScale_pos {rng : Nat} {logp : BitVec 5} (hl : logpLegal logp) (hr : 2 ^ 23 < rng) : 1 ≤ logpScale rng logp := by
  have hpow : 2 ^ logp.toNat ≤ 2 ^ 23 := Nat.pow_le_pow_right (by decide) hl
  exact Nat.div_pos (hpow.trans hr.le) (Nat.two_pow_pos _)

theorem logpUpdate_renormalizable {logp : BitVec 5} (hl : logpLegal logp) (hr : RangeOk s) (hc : CursorOk s) :
    Renormalizable (logpUpdate (logpScale s.rng.toNat logp) s) := by
  obtain ⟨h23, h31, hv⟩ := hr
  have hpos := logpScale_pos hl h23
  have hle : logpScale s.rng.toNat logp ≤ s.rng.toNat := Nat.div_le_self _ _
  unfold logpUpdate
  split
  · exact renormalizable_loadCoder (by omega) (by omega) (by omega) hc
  · exact renormalizable_loadCoder (by omega) (by omega) (by omega) hc

theorem runDeclogp_coderOk {logp : BitVec 5} (hl : logpLegal logp) (hr : RangeOk s) (hc : CursorOk s)
    (h : runDeclogp logp s = .next t) : CoderOk t :=
  finish_coderOk (fun _ => completeDecode_coderOk _) (logpUpdate_renormalizable hl hr hc) h

/-- From a coder in range no quotient of a decode is by 0, so the decoded symbol holds the spec's position
(42_symbol_decode.md R122, R128). -/
theorem icdfSymbol_holds {e : Entries} {nsym : Nat} (ht : TableOk e nsym) (hr : RangeOk s) :
    icdfScale e s = s.rng.toNat / e 0 ∧ SymbolHolds e nsym (icdfPosition (e 0) s) (icdfSymbol e nsym s) := by
  obtain ⟨h23, -, -⟩ := hr
  have hft := ht.ft_pos
  have hftm := ht.ft_max
  have hscale : icdfScale e s = s.rng.toNat / e 0 := if_neg (by omega)
  have hpos : s.rng.toNat / e 0 ≠ 0 := (Nat.div_pos (by omega) hft).ne'
  have hfs : scaledPosition (e 0) (floorDiv s.val.toNat (icdfScale e s)) = icdfPosition (e 0) s := by
    rw [hscale, floorDiv, if_neg hpos]
    rfl
  have hlt : icdfPosition (e 0) s < e 0 := Nat.sub_lt hft (lt_min (Nat.succ_pos _) hft)
  refine ⟨hscale, ?_⟩
  rw [icdfSymbol, hfs]
  exact search_holds ht hlt

theorem icdfUpdate_renormalizable {e : Entries} {nsym : Nat} (ht : TableOk e nsym) (hr : RangeOk s) (hc : CursorOk s) :
    Renormalizable (icdfUpdate e (icdfSymbol e nsym s) s) := by
  obtain ⟨hscale, hk⟩ := icdfSymbol_holds ht hr
  obtain ⟨h23, h31, hv⟩ := hr
  have ⟨_, hlow, hhigh⟩ := hk
  obtain ⟨h128, -, -, hcut, htop⟩ :=
    icdf_arith h23 hv ht.ft_pos ht.ft_max hlow hhigh (hk.bounds ht).2
  unfold icdfUpdate
  simp only [hscale]
  split
  · next hpos =>
    obtain ⟨hval, hmin, hmax⟩ := hcut hpos
    exact renormalizable_loadCoder (by omega) (by omega) hval hc
  · next hzero =>
    obtain ⟨hval, hmin⟩ := htop (Nat.eq_zero_of_not_pos hzero)
    exact renormalizable_loadCoder (by omega) (by omega) hval hc

theorem runDecicdf_coderOk {tbase : Addr} {nsym : BitVec 8} (hr : RangeOk s) (hc : CursorOk s)
    (h : runDecicdf tbase nsym s = .next t) : CoderOk t := by
  unfold runDecicdf at h
  dsimp only at h
  split at h
  · next hwf =>
    have ht := (tableWellFormed_iff _ _).mp hwf
    exact finish_coderOk (fun _ => completeDecode_coderOk _) (icdfUpdate_renormalizable ht hr hc) h
  · cases h

/-- The dispatch checks change no register of the coder. -/
theorem whenReady_coderOk {run : State → Host.Outcome State Fault Refusal} (hs : CoderOk s)
    (hrun : RangeOk s → CursorOk s → run s = .next t → CoderOk t) (h : whenReady s run = .next t) : CoderOk t := by
  rcases whenReady_cases s run with ⟨-, he⟩ | ⟨-, he⟩ | ⟨hl, he⟩
  · rw [he] at h
    cases h
    exact hs
  · rw [he] at h
    cases h
    exact hs
  · obtain ⟨hr, hc⟩ := hs hl
    exact hrun hr hc (he.symm.trans h)

theorem exec_coderOk {i : Instr} (hs : CoderOk s) (h : exec i s = .next t) : CoderOk t := by
  cases i with
  | init => exact execInit_coderOk h
  | declogp logp =>
    rw [show exec (.declogp logp) s = execDeclogp logp s from rfl, execDeclogp] at h
    split at h
    · next hl => exact whenReady_coderOk hs (runDeclogp_coderOk hl) h
    · cases h
      exact hs
  | decicdf tbase nsym =>
    rw [show exec (.decicdf tbase nsym) s = execDecicdf tbase nsym s from rfl, execDecicdf] at h
    split at h
    · exact whenReady_coderOk hs runDecicdf_coderOk h
    · cases h
      exact hs
  | lutrd idx =>
    cases h
    exact hs

/-! ### How a command ends -/

/-- The ways a command that answers a next state ends (60_exceptions.md R160 to R166): with a failure that changes `ERR` alone,
with the stream drained, or with the completion of its own kind. -/
inductive Ends (i : Instr) (s : State) : State → Prop where
  | illegal : Ends i s (raiseIllegal s)
  | notReady (hs : s.state = .uninit) : Ends i s (raiseNotReady s)
  | stillExhausted (hs : s.state = .exhausted) : Ends i s (reportExhausted s)
  | drained : Ends i s (raiseExhausted (drained s))
  | init {n : Nat} {u : State} (hi : i = .init) (hu : Took n s u) : Ends i s (completeInit u)
  | decode {n : Nat} {u : State} (w : Word) (hi : i ≠ .init) (hu : Took n s u) : Ends i s (completeDecode w u)
  | lutrd (w : Word) (hi : i ≠ .init) : Ends i s (completeLutrd w s)

theorem exec_ends {i : Instr} (h : exec i s = .next t) : Ends i s t := by
  have ends {u : State} (he : exec i s = .next u) (hu : Ends i s u) : Ends i s t := by
    rw [he] at h
    cases h
    exact hu
  cases i with
  | init =>
    rcases execInit_cases s with ⟨n, u, he, hu⟩ | he
    · exact ends he (.init rfl hu)
    · exact ends he .drained
  | declogp logp =>
    rcases execDeclogp_cases logp s with ⟨-, he⟩ | ⟨-, hs, he⟩ | ⟨-, hs, he⟩ | ⟨-, -, ⟨n, u, w, he, hu⟩ | he⟩
    · exact ends he .illegal
    · exact ends he (.notReady hs)
    · exact ends he (.stillExhausted hs)
    · exact ends he (.decode w (by simp) hu)
    · exact ends he .drained
  | decicdf tbase nsym =>
    rcases execDecicdf_cases tbase nsym s with
      ⟨-, he⟩ | ⟨-, ⟨hs, he⟩ | ⟨hs, he⟩ | ⟨-, -, he⟩ | ⟨-, -, ⟨n, u, w, he, hu⟩ | he⟩⟩
    · exact ends he .illegal
    · exact ends he (.notReady hs)
    · exact ends he (.stillExhausted hs)
    · exact absurd (he.symm.trans h) (by simp)
    · exact ends he (.decode w (by simp) hu)
    · exact ends he .drained
  | lutrd idx => exact ends rfl (.lutrd _ (by simp))

/-- A command that ends leaves `ERR` with the `STATE` it goes with (41_lifecycle_init.md R116). -/
theorem Ends.statusOk {i : Instr} (h : Ends i s t) : StatusOk t := by
  cases h with
  | illegal => exact ⟨nofun, nofun⟩
  | notReady hs => exact ⟨nofun, fun _ => hs⟩
  | stillExhausted hs => exact ⟨fun _ => hs, nofun⟩
  | drained => exact ⟨fun _ => rfl, nofun⟩
  | init => exact ⟨nofun, nofun⟩
  | decode => exact ⟨nofun, nofun⟩
  | lutrd => exact ⟨nofun, nofun⟩

/-! ### Every step -/

theorem executeWord_inv {w : Word} (hs : Inv s) (h : executeWord w s = .next t) : Inv t := by
  obtain ⟨hcoder, -, htable⟩ := hs
  unfold executeWord at h
  split at h
  · cases h
    exact ⟨hcoder, ⟨nofun, nofun⟩, htable⟩
  · exact ⟨exec_coderOk hcoder h, (exec_ends h).statusOk, (exec_coreStep h).table ▸ htable⟩

theorem readPort_inv (a : BitVec 3) (hs : Inv s) : Inv (readPort a s) := by
  rw [readPort_eq]
  exact hs

theorem writeTable_inv (a : Addr) (v : Word) (hs : Inv s) : Inv (writeTable a v s) := by
  obtain ⟨hcoder, hstatus, htable⟩ := hs
  exact ⟨hcoder, hstatus, tblWrite_wf a v htable⟩

/-- Reset ends every lifetime, so the table memory alone matters. -/
theorem applyReset_inv (htable : TableMem.wf s.table = true) : Inv (applyReset s) :=
  ⟨nofun, ⟨nofun, nofun⟩, htable⟩

theorem idleStep_inv {h : HostStep} (hs : Inv s) (he : idleStep h s = .next t) : Inv t := by
  have htable : TableMem.wf s.table = true := hs.2.2
  cases h with
  | command w => exact executeWord_inv hs he
  | setStream bytes => cases he; exact hs
  | writeTable a v => cases he; exact writeTable_inv a v hs
  | readReg a => cases he; exact readPort_inv a hs
  | reset => cases he; exact applyReset_inv htable
  | resetDuring w n =>
    rcases executeWord_answers w s with ⟨u, hu⟩ | ⟨hu, -⟩
    · cases (resetDuring_next n hu).symm.trans he
      exact applyReset_inv htable
    · cases (resetDuring_refused n hu).symm.trans he

/-- The next states of a step taken while `BUSY = 1` (70_reset_and_hazards.md R190, R195, R199). -/
inductive BusyEnds (f : InFlight) (s : State) : State → Prop where
  | complete {t : State} (he : executeWord f.command (beforeCommand f s) = .next t) : BusyEnds f s t
  | writeTable (a : Addr) (v : Word) (q : List HostStep) : BusyEnds f s (writeTable a v { s with host := q })
  | readReg (a : BitVec 3) (q : List HostStep) : BusyEnds f s (readPort a { s with host := q })
  | reset (q : List HostStep) : BusyEnds f s (applyReset { s with host := q })

theorem busyStep_ends {f : InFlight} (h : busyStep f s = .next t) : BusyEnds f s t := by
  unfold busyStep at h
  split at h
  · exact .complete h
  · exact .complete h
  · exact .complete h
  · cases h
  · split at h
    · cases h
    · cases h
      exact .writeTable _ _ _
  · cases h
    exact .readReg _ _
  · cases h
    exact .reset _

theorem BusyEnds.inv {f : InFlight} (hs : Inv s) (h : BusyEnds f s t) : Inv t := by
  have htable : TableMem.wf s.table = true := hs.2.2
  cases h with
  | complete he => exact executeWord_inv (s := beforeCommand f s) hs he
  | writeTable a v q => exact writeTable_inv a v (s := { s with host := q }) hs
  | readReg a q => exact readPort_inv a (s := { s with host := q }) hs
  | reset q => exact applyReset_inv htable

theorem step_inv (hs : Inv s) (h : step s = .next t) : Inv t := by
  cases hf : s.inFlight with
  | some f =>
    rw [step_busy hf] at h
    exact (busyStep_ends h).inv hs
  | none =>
    cases hq : s.host with
    | nil =>
      rw [step_idle_nil hf hq] at h
      cases h
      exact hs
    | cons hstep q =>
      rw [step_idle_cons hf hq] at h
      exact idleStep_inv (s := { s with host := q }) hs h

/-- Settles O44: a step with `BUSY = 0` is a host step, one with `BUSY = 1` is a host step or the completion, and each keeps the
invariant; a command does because its update leaves a coder that renormalization brings back into range. -/
theorem everyStepKeepsTheInvariant : Obligations.EveryStepKeepsTheInvariant := by
  unfold Obligations.EveryStepKeepsTheInvariant
  exact fun _ _ hs h => step_inv hs h

/-- Settles O43: the state at reset is one a reset leaves, with no table entry listed. -/
theorem invariantHoldsAtReset : Obligations.InvariantHoldsAtReset := by
  unfold Obligations.InvariantHoldsAtReset
  exact ⟨applyReset_inv reset_table_wf, rfl⟩

end Sys2Proof.Machine
end

section
/-! PROOFS. What the host reads of the registers (10_state.md R32 to R35), and what reset leaves (R40). -/

namespace Sys2Proof.Machine

variable {s t : State}

/-! ### `STATUS` and `CUR` as numbers -/

theorem statusWord_toNat (s : State) :
    (statusWord s).toNat = s.err.code.toNat * 2 ^ 4 + s.busy.toNat * 2 ^ 2 + s.state.code.toNat := by
  have herr := s.err.code.isLt
  have hstate := s.state.code.isLt
  have hbusy := Bool.toNat_lt s.busy
  rw [statusWord, BitVec.toNat_setWidth, toNat_append_eq, toNat_append_eq, toNat_append_eq, BitVec.toNat_ofBool]
  simp only [BitVec.toNat_ofNat]
  omega

theorem curWord_toNat (s : State) : (curWord s).toNat = s.ccnt.val * 2 ^ 8 + s.cbyte.toNat := by
  have hccnt := s.ccnt.isLt
  have hcbyte := s.cbyte.isLt
  rw [curWord, BitVec.toNat_setWidth, toNat_append_eq, BitVec.toNat_ofNat]
  omega

theorem statusWord_busy (s : State) : (statusWord s).extractLsb' 2 1 = BitVec.ofBool s.busy := by
  have hstate := s.state.code.isLt
  have hbusy := Bool.toNat_lt s.busy
  apply field_eq_of_toNat
  rw [statusWord_toNat, BitVec.toNat_ofBool]
  omega

/-- Settles O13: the codes are those written, and `STATUS` as a number has its fields apart. -/
theorem statusLayout : Obligations.StatusLayout := by
  unfold Obligations.StatusLayout
  refine ⟨⟨rfl, rfl, rfl, rfl⟩, ⟨rfl, rfl, rfl, rfl⟩, fun s => ?_⟩
  have herr := s.err.code.isLt
  have hstate := s.state.code.isLt
  have hbusy := Bool.toNat_lt s.busy
  refine ⟨?_, statusWord_busy s, ?_, ?_, ?_⟩
  · apply field_eq_of_toNat
    rw [statusWord_toNat]
    omega
  · rw [field_eq_zero, statusWord_toNat]
    omega
  · apply field_eq_of_toNat
    rw [statusWord_toNat]
    omega
  · rw [field_eq_zero, statusWord_toNat]
    omega

/-- Settles O14: `CUR` as a number has its fields apart. -/
theorem curLayout : Obligations.CurLayout := by
  unfold Obligations.CurLayout
  intro s
  have hccnt := s.ccnt.isLt
  have hcbyte := s.cbyte.isLt
  refine ⟨?_, ?_, ?_⟩
  · apply field_eq_of_toNat
    rw [curWord_toNat]
    omega
  · rw [field_toNat, curWord_toNat]
    omega
  · rw [field_eq_zero, curWord_toNat]
    omega

/-! ### The register read port -/

theorem step_readReg_idle {a : BitVec 3} {q : List HostStep} (hi : Idle s) (hq : s.host = .readReg a :: q) :
    step s = .next { s with host := q, regRdata := readIdle a { s with host := q } } := by
  rw [step_idle_cons hi hq, idleStep, readPort_idle]
  simp [State.busy, hi]

theorem step_readReg_busy {f : InFlight} {a : BitVec 3} {q : List HostStep} (hf : s.inFlight = some f)
    (hq : s.host = .readReg a :: q) : step s = .next (readPort a { s with host := q }) := by
  rw [step_busy hf]
  simp only [busyStep, hq]

/-- `STATUS` is read as it is, `BUSY` 0 or 1 (10_state.md R35). -/
theorem readPort_status (s : State) : (readPort 0 s).regRdata = statusWord s := by
  simp [readPort, unstableWhileBusy, readIdle]

/-- Settles O15: an idle read answers from the map, at each of the eight addresses. -/
theorem registerReadsAnswerTheMap : Obligations.RegisterReadsAnswerTheMap := by
  unfold Obligations.RegisterReadsAnswerTheMap
  intro s a q hi hq
  refine ⟨_, step_readReg_idle hi hq, ?_, ?_, ?_, ?_, ?_, ?_⟩
  · rintro rfl; rfl
  · rintro rfl; rfl
  · rintro rfl; rfl
  · rintro rfl; rfl
  · rintro rfl; rfl
  · rintro (rfl | rfl | rfl) <;> rfl

/-- Settles O16: a read writes the port's answer and the counter alone, and `STATUS` is not among the free reads. -/
theorem readsWhileBusyKeepTheBlock : Obligations.ReadsWhileBusyKeepTheBlock := by
  unfold Obligations.ReadsWhileBusyKeepTheBlock
  intro s f a q hf hq
  refine ⟨_, step_readReg_busy hf hq, readPort_eq { s with host := q } a, ?_⟩
  rintro rfl
  have hstatus : (readPort 0 { s with host := q }).regRdata = statusWord s := readPort_status _
  have hbusy : s.busy = true := by simp [State.busy, hf]
  refine ⟨hstatus, ?_⟩
  rw [hstatus, statusWord_busy, hbusy]
  rfl

/-! ### Reset, and `BUSY` -/

/-- Reset is taken at any time (70_reset_and_hazards.md R190). -/
theorem step_reset {q : List HostStep} (hq : s.host = .reset :: q) :
    step s = .next (applyReset { s with host := q }) := by
  rcases hf : s.inFlight with _ | f
  · rw [step_idle_cons hf hq, idleStep, hf]
  · rw [step_busy hf]
    simp only [busyStep, hq, hf]

/-- Settles O7: the step is `applyReset`, with a command in flight or without. -/
theorem resetSetsTheRegistersAndNothingOutside : Obligations.ResetSetsTheRegistersAndNothingOutside := by
  unfold Obligations.ResetSetsTheRegistersAndNothingOutside
  refine ⟨fun s q hq => ⟨_, step_reset hq, rfl, rfl, rfl, rfl⟩, rfl, rfl, rfl, rfl, rfl, rfl, rfl, rfl⟩

theorem step_idle (hi : Idle s) (h : step s = .next t) : Idle t := by
  cases hq : s.host with
  | nil =>
    rw [step_idle_nil hi hq] at h
    cases h
    exact hi
  | cons hstep q =>
    rw [step_idle_cons hi hq] at h
    exact (idleStep_host h hi).2

/-- Settles O45: no host step taken while `BUSY = 0` leaves a command in flight, and `BUSY` and `cmd_ready` follow from that. -/
theorem everyStepKeepsBusyZero : Obligations.EveryStepKeepsBusyZero := by
  unfold Obligations.EveryStepKeepsBusyZero
  intro s t hi h
  have ht : Idle t := step_idle hi h
  have hbusy : t.busy = false := by simp [State.busy, ht]
  exact ⟨ht, hbusy, by rw [cmdReady, hbusy]; rfl⟩

end Sys2Proof.Machine
end

section
/-! PROOFS. The frame of all commands (10_state.md R30, R41, R50), and what a command's results depend on (R37). -/

namespace Sys2Proof.Machine

variable {s s' t : State}

/-! ### The frame -/

/-- `t` is `s` but for the fields a command may write. -/
def SameButCommand (s t : State) : Prop :=
  t = { s with
    rng := t.rng, val := t.val, cbyte := t.cbyte, ccnt := t.ccnt, state := t.state, err := t.err
    result := t.result, stream := t.stream, fetched := t.fetched, draws := t.draws }

theorem CoreStep.sameButCommand (h : CoreStep s t) : SameButCommand s t := by
  obtain ⟨hinFlight, hhost, htable, hregRdata, -⟩ := h
  unfold SameButCommand
  rw [← hinFlight, ← hhost, ← htable, ← hregRdata]

theorem SameButCoder.result_eq (h : SameButCoder s t) : t.result = s.result := by
  unfold SameButCoder at h
  rw [h]

theorem SameButCoder.draws_eq (h : SameButCoder s t) : t.draws = s.draws := by
  unfold SameButCoder at h
  rw [h]

/-- Only a decode or `LUTRD` that completes writes `RESULT` (10_state.md R30). -/
theorem Ends.result_kept {i : Instr} (h : Ends i s t) (hi : i = .init ∨ t.err ≠ .ok) : t.result = s.result := by
  cases h with
  | illegal => rfl
  | notReady => rfl
  | stillExhausted => rfl
  | drained => rfl
  | init _ hu => exact hu.1.result_eq
  | decode w hne => exact (hi.elim hne (absurd rfl)).elim
  | lutrd w hne => exact (hi.elim hne (absurd rfl)).elim

/-- Only `raise Exhausted` draws free values (log 4). -/
theorem Ends.draws_kept {i : Instr} (h : Ends i s t) (ht : t.state ≠ .exhausted) : t.draws = s.draws := by
  cases h with
  | illegal => rfl
  | notReady => rfl
  | stillExhausted => rfl
  | drained => exact absurd rfl ht
  | init _ hu => exact hu.1.draws_eq
  | decode w _ hu => exact hu.1.draws_eq
  | lutrd => rfl

/-- Settles O40: what a command leaves alone is `CoreStep`, and `RESULT` and the counter follow from the way it ends. -/
theorem commandsLeaveTheRestAlone : Obligations.CommandsLeaveTheRestAlone := by
  unfold Obligations.CommandsLeaveTheRestAlone
  intro i s t h
  have hstep := exec_coreStep h
  have hends := exec_ends h
  exact ⟨hstep.sameButCommand, fun a => by rw [hstep.table], hends.result_kept, hends.draws_kept⟩

/-! ### Equal inputs, equal results -/

/-- The two states hold the same results of a command, and the same coder where it is determined (10_state.md R37,
60_exceptions.md R163). -/
def SameResults (t t' : State) : Prop :=
  t'.result = t.result ∧ t'.err = t.err ∧ t'.state = t.state ∧ t'.stream = t.stream ∧
    (t.state ≠ .exhausted → t'.rng = t.rng ∧ t'.val = t.val ∧ t'.cbyte = t.cbyte ∧ t'.ccnt = t.ccnt)

/-- Where the one outcome is a next state, the other is one with the same results. -/
def SameOutcome (o o' : Host.Outcome State Fault Refusal) : Prop :=
  ∀ t, o = .next t → ∃ t', o' = .next t' ∧ SameResults t t'

theorem sameOutcome_next (h : SameResults s s') : SameOutcome (.next s) (.next s') := by
  intro t ht
  cases ht
  exact ⟨s', rfl, h⟩

/-- What two states have in common that agree on the inputs of every command but the table (10_state.md R37). -/
structure SameInputs (s s' : State) : Prop where
  coder : CoderEq s s'
  state : s'.state = s.state
  result : s'.result = s.result

theorem SameInputs.stream (h : SameInputs s s') : s'.stream = s.stream := h.coder.2.2.2.2

/-- From equal coders, equal `RESULT`, `ERR` and `STATE` make the results the same. -/
theorem CoderEq.sameResults (h : CoderEq s s') (hresult : s'.result = s.result) (herr : s'.err = s.err)
    (hstate : s'.state = s.state) : SameResults s s' := by
  obtain ⟨hrng, hval, hcbyte, hccnt, hstream⟩ := h
  exact ⟨hresult, herr, hstate, hstream, fun _ => ⟨hrng, hval, hcbyte, hccnt⟩⟩

theorem OutcomeAgree.sameOutcome {complete : State → State} {o o' : Host.Outcome State Fault Refusal}
    (h : OutcomeAgree complete s s' o o') (hresult : s'.result = s.result)
    (hcomplete : ∀ {u u'}, CoderEq u u' → u'.result = u.result → SameResults (complete u) (complete u')) :
    SameOutcome o o' := by
  rcases h with ⟨m, m', u, u', rfl, rfl, hu, hu', hcoder⟩ | ⟨rfl, rfl⟩
  · have hures : u'.result = u.result := by rw [hu'.1.result_eq, hu.1.result_eq, hresult]
    exact sameOutcome_next (hcomplete hcoder hures)
  · exact sameOutcome_next ⟨hresult, rfl, rfl, rfl, absurd rfl⟩

theorem completeInit_sameResults (h : CoderEq s s') (hr : s'.result = s.result) :
    SameResults (completeInit s) (completeInit s') :=
  CoderEq.sameResults (s := completeInit s) (s' := completeInit s') h hr rfl rfl

theorem completeDecode_sameResults (w : Word) (h : CoderEq s s') (_ : s'.result = s.result) :
    SameResults (completeDecode w s) (completeDecode w s') :=
  CoderEq.sameResults (s := completeDecode w s) (s' := completeDecode w s') h rfl rfl rfl

theorem raiseIllegal_sameResults (h : SameInputs s s') : SameResults (raiseIllegal s) (raiseIllegal s') :=
  CoderEq.sameResults (s := raiseIllegal s) (s' := raiseIllegal s') h.coder h.result rfl h.state

/-- The dispatch checks depend on `STATE` alone (60_exceptions.md R166). -/
theorem whenReady_sameOutcome {run run' : State → Host.Outcome State Fault Refusal} (h : SameInputs s s')
    (hrun : SameOutcome (run s) (run' s')) : SameOutcome (whenReady s run) (whenReady s' run') := by
  unfold whenReady
  rw [h.state]
  cases hs : s.state with
  | uninit =>
    exact sameOutcome_next
      (CoderEq.sameResults (s := raiseNotReady s) (s' := raiseNotReady s') h.coder h.result rfl h.state)
  | exhausted =>
    exact sameOutcome_next
      (CoderEq.sameResults (s := reportExhausted s) (s' := reportExhausted s') h.coder h.result rfl h.state)
  | constructed => exact hrun
  | decoding => exact hrun

theorem execDeclogp_sameOutcome (logp : BitVec 5) (h : SameInputs s s') :
    SameOutcome (execDeclogp logp s) (execDeclogp logp s') := by
  unfold execDeclogp
  split
  · exact whenReady_sameOutcome h
      ((runDeclogp_agree logp h.coder).sameOutcome h.result (completeDecode_sameResults _))
  · exact sameOutcome_next (raiseIllegal_sameResults h)

theorem execDecicdf_sameOutcome (tbase : Addr) (nsym : BitVec 8) (h : SameInputs s s')
    (ht : ∀ a : Addr, tblRead s'.table a = tblRead s.table a) :
    SameOutcome (execDecicdf tbase nsym s) (execDecicdf tbase nsym s') := by
  unfold execDecicdf
  split
  · next hl =>
    obtain ⟨hn, hw⟩ := hl
    apply whenReady_sameOutcome h
    rcases runDecicdf_agree hn hw h.coder (fun a _ => ht a) with ⟨hr, -⟩ | hagree
    · rw [hr]
      exact nofun
    · exact hagree.sameOutcome h.result (completeDecode_sameResults _)
  · exact sameOutcome_next (raiseIllegal_sameResults h)

theorem exec_sameOutcome (i : Instr) (h : SameInputs s s') (ht : ∀ a : Addr, tblRead s'.table a = tblRead s.table a) :
    SameOutcome (exec i s) (exec i s') := by
  cases i with
  | init => exact (execInit_agree h.stream).sameOutcome h.result completeInit_sameResults
  | declogp logp => exact execDeclogp_sameOutcome logp h
  | decicdf tbase nsym => exact execDecicdf_sameOutcome tbase nsym h ht
  | lutrd idx =>
    exact sameOutcome_next
      (CoderEq.sameResults (s := completeLutrd _ s) (s' := completeLutrd _ s') h.coder rfl rfl h.state)

/-- Settles O47: each command, dispatch checks and body, gives the same results from states with the same inputs. -/
theorem sameInputsSameResults : Obligations.SameInputsSameResults := by
  unfold Obligations.SameInputsSameResults
  intro i s s' t hrng hval hcbyte hccnt hstate hresult hstream htable h
  exact exec_sameOutcome i ⟨⟨hrng, hval, hcbyte, hccnt, hstream⟩, hstate, hresult⟩ htable t h

end Sys2Proof.Machine
end

section
/-! PROOFS. The byte source and the table memory (20_memory.md R51 to R63): what raw bits and commands take from the stream, what
a `DECICDF` reads of the table, and what the host does to both, with `BUSY` 0 and 1. -/

namespace Sys2Proof

/-! ### A word that decodes is legal as 30_encoding.md R79 words it -/

variable {w : Word} {i : Instr}

theorem decodeN_legal (h : decodeN w = .legal i) : w.toNat % 2 ^ 28 = 0 := by
  unfold decodeN at h
  split at h
  · next hzero =>
    rw [field_eq_zero] at hzero
    omega
  · cases h

theorem decodeL_legal (h : decodeL w = .legal i) : w.toNat % 2 ^ 28 / 2 ^ 5 = 0 ∧ w.toNat % 2 ^ 5 ≤ 23 := by
  unfold decodeL at h
  split at h
  · next hzero =>
    split at h
    · next hlogp =>
      rw [field_eq_zero] at hzero
      rw [logpLegal, field_toNat, Config.logpMax] at hlogp
      omega
    · cases h
  · cases h

theorem decodeT_legal (h : decodeT w = .legal i) :
    w.toNat % 2 ^ 28 / 2 ^ 24 = 0 ∧ 1 ≤ w.toNat % 2 ^ 8 ∧
      w.toNat % 2 ^ 24 / 2 ^ 8 + w.toNat % 2 ^ 8 ≤ 0xFFFF := by
  unfold decodeT at h
  split at h
  · next hzero =>
    split at h
    · next hnsym =>
      split at h
      · next hwindow =>
        rw [field_eq_zero] at hzero
        rw [nsymLegal, field_toNat] at hnsym
        rw [windowLegal, field_toNat, field_toNat, Config.addrMax] at hwindow
        omega
      · cases h
    · cases h
  · cases h

theorem decodeX_legal (h : decodeX w = .legal i) : w.toNat % 2 ^ 28 / 2 ^ 8 = 0 := by
  unfold decodeX at h
  split at h
  · next hzero =>
    rw [field_eq_zero] at hzero
    omega
  · cases h

namespace Machine

/-! Each opcode has one clause of `Legal(w)` (30_encoding.md R79). -/

theorem legalWord_of_opcode_one (hop : (opField w).toNat = 1) (hzero : w.toNat % 2 ^ 28 = 0) : legalWord w = true := by
  rw [opField_toNat] at hop
  rw [legalWord, hop]
  exact decide_eq_true hzero

theorem legalWord_of_opcode_two (hop : (opField w).toNat = 2) (hzero : w.toNat % 2 ^ 28 / 2 ^ 5 = 0)
    (hlogp : w.toNat % 2 ^ 5 ≤ 23) : legalWord w = true := by
  rw [opField_toNat] at hop
  rw [legalWord, hop]
  exact Bool.and_eq_true_iff.mpr ⟨decide_eq_true hzero, decide_eq_true hlogp⟩

theorem legalWord_of_opcode_three (hop : (opField w).toNat = 3) (hzero : w.toNat % 2 ^ 28 / 2 ^ 24 = 0)
    (hnsym : 1 ≤ w.toNat % 2 ^ 8) (hwindow : w.toNat % 2 ^ 24 / 2 ^ 8 + w.toNat % 2 ^ 8 ≤ 0xFFFF) :
    legalWord w = true := by
  rw [opField_toNat] at hop
  rw [legalWord, hop]
  exact Bool.and_eq_true_iff.mpr
    ⟨Bool.and_eq_true_iff.mpr ⟨decide_eq_true hzero, decide_eq_true hnsym⟩, decide_eq_true hwindow⟩

theorem legalWord_of_opcode_four (hop : (opField w).toNat = 4) (hzero : w.toNat % 2 ^ 28 / 2 ^ 8 = 0) :
    legalWord w = true := by
  rw [opField_toNat] at hop
  rw [legalWord, hop]
  exact decide_eq_true hzero

/-- The checks of each format are its opcode's clause of `Legal(w)`. -/
theorem legalWord_of_decodeWord (h : decodeWord w = .legal i) : legalWord w = true := by
  unfold decodeWord at h
  split at h
  · next hop => exact legalWord_of_opcode_one hop (decodeN_legal h)
  · next hop =>
    obtain ⟨hzero, hlogp⟩ := decodeL_legal h
    exact legalWord_of_opcode_two hop hzero hlogp
  · next hop =>
    obtain ⟨hzero, hnsym, hwindow⟩ := decodeT_legal h
    exact legalWord_of_opcode_three hop hzero hnsym hwindow
  · next hop => exact legalWord_of_opcode_four hop (decodeX_legal h)
  · cases h

/-- A word that is not legal is reported, and changes `ERR` alone (60_exceptions.md R162). -/
theorem executeWord_illegal (h : legalWord w = false) (s : State) : executeWord w s = .next (raiseIllegal s) := by
  cases hd : decodeWord w with
  | legal i => exact absurd ((legalWord_of_decodeWord hd).symm.trans h) nofun
  | illegal why => rw [executeWord, hd]

end Machine

end Sys2Proof

namespace Sys2Proof.Machine

variable {s s' t u : State}

/-! ### Raw bits -/

/-- Settles O17: `readBitsInto_spec` from no bits read, in each of its two cases. -/
theorem readBitsTakesTheNextBits : Obligations.ReadBitsTakesTheNextBits := by
  unfold Obligations.ReadBitsTakesTheNextBits
  intro n s
  rcases readBitsInto_spec n 0 s with ⟨hn, t, he, hub, hsame, hf, hst, -⟩ | ⟨hn, t, he, hst, hf, hsame⟩
  · refine ⟨fun _ => ⟨t, he, hub, ?_⟩, fun hlt => absurd hn (Nat.not_le.mpr hlt)⟩
    rw [← hst, ← hf]
    exact hsame
  · refine ⟨fun hle => absurd hle (Nat.not_le.mpr hn), fun _ => ⟨t, he, ?_⟩⟩
    rw [← hst, ← hf]
    exact hsame

/-! ### The bytes a command takes -/

theorem normSteps_le_three (rng : Nat) : normSteps rng ≤ 3 := by
  unfold normSteps
  repeat' split
  all_goals omega

/-- A command that ends in a renormalization takes at most 3 bytes there (43_normalize_bits.md R150). -/
theorem finish_fetched_le {complete : State → State} (hcomplete : ∀ v, (complete v).fetched = v.fetched)
    (hu : Renormalizable u) (h : finish complete (normalize u) = .next t) : t.fetched ≤ u.fetched + 3 := by
  obtain ⟨h1, h31, hv, hc⟩ := hu
  have hthree := normSteps_le_three u.rng.toNat
  rcases normalize_closed u h1 h31 hv hc with ⟨-, he, -, -⟩ | ⟨hlen, v, he, hdrained⟩
  · rw [he] at h
    cases h
    rw [hcomplete]
    exact Nat.add_le_add_left hthree u.fetched
  · rw [he, finish, hdrained] at h
    cases h
    exact Nat.add_le_add_left (hlen.le.trans hthree) u.fetched

/-- `INIT` takes one byte for its first bits, and at most 3 more (41_lifecycle_init.md R114). -/
theorem execInit_fetched_le (h : execInit s = .next t) : t.fetched ≤ s.fetched + 4 := by
  unfold execInit at h
  cases hs : s.stream with
  | nil =>
    rcases readBitsInto_spec Config.initBits 0 (emptyCursor s) with ⟨hn, -⟩ | ⟨-, u, he, -, hf, -⟩
    · rw [length_unreadBits, emptyCursor_stream, emptyCursor_ccnt, hs] at hn
      exact absurd hn (by decide)
    · rw [readBits, he] at h
      cases h
      rw [raiseExhausted_fetched, hf, emptyCursor_stream, emptyCursor_fetched, hs]
      exact Nat.add_le_add_left (Nat.zero_le 4) s.fetched
  | cons b rest =>
    rw [Config.initBits, readBits_seven (emptyCursor s) b rest rfl hs] at h
    have hval : 127 - b.toNat / 2 < 128 := by omega
    exact finish_fetched_le completeInit_fetched
      (renormalizable_loadCoder (by decide) (by decide) hval rfl) h

theorem runDeclogp_fetched_le {logp : BitVec 5} (hl : logpLegal logp) (hr : RangeOk s) (hc : CursorOk s)
    (h : runDeclogp logp s = .next t) : t.fetched ≤ s.fetched + 3 := by
  have hbound := finish_fetched_le (fun v => completeDecode_fetched v _) (logpUpdate_renormalizable hl hr hc) h
  obtain ⟨-, -, hf, -⟩ := logpUpdate_took (logpScale s.rng.toNat logp) s
  rwa [hf] at hbound

theorem runDecicdf_fetched_le {tbase : Addr} {nsym : BitVec 8} (hr : RangeOk s) (hc : CursorOk s)
    (h : runDecicdf tbase nsym s = .next t) : t.fetched ≤ s.fetched + 3 := by
  unfold runDecicdf at h
  dsimp only at h
  split at h
  · next hwf =>
    have ht := (tableWellFormed_iff _ _).mp hwf
    have hbound := finish_fetched_le (fun v => completeDecode_fetched v _) (icdfUpdate_renormalizable ht hr hc) h
    obtain ⟨-, -, hf, -⟩ := icdfUpdate_took (entries s.table tbase)
      (icdfSymbol (entries s.table tbase) nsym.toNat s) s
    rwa [hf] at hbound
  · cases h

/-- The dispatch checks take no byte. -/
theorem whenReady_fetched_le {run : State → Host.Outcome State Fault Refusal} (hs : CoderOk s)
    (hrun : RangeOk s → CursorOk s → run s = .next t → t.fetched ≤ s.fetched + 3) (h : whenReady s run = .next t) :
    t.fetched ≤ s.fetched + 3 := by
  rcases whenReady_cases s run with ⟨-, he⟩ | ⟨-, he⟩ | ⟨hl, he⟩
  · rw [he] at h
    cases h
    exact Nat.le_add_right s.fetched 3
  · rw [he] at h
    cases h
    exact Nat.le_add_right s.fetched 3
  · obtain ⟨hr, hc⟩ := hs hl
    exact hrun hr hc (he.symm.trans h)

/-- The bytes a command takes at most, from a coder in range (20_memory.md R61). -/
def mostBytes : Instr → Nat
  | .init => 4
  | .declogp _ => 3
  | .decicdf _ _ => 3
  | .lutrd _ => 0

theorem exec_fetched_le {i : Instr} (hs : CoderOk s) (h : exec i s = .next t) :
    t.fetched ≤ s.fetched + mostBytes i := by
  cases i with
  | init => exact execInit_fetched_le h
  | declogp logp =>
    rw [show exec (.declogp logp) s = execDeclogp logp s from rfl, execDeclogp] at h
    split at h
    · next hl => exact whenReady_fetched_le hs (runDeclogp_fetched_le hl) h
    · cases h
      exact Nat.le_add_right s.fetched 3
  | decicdf tbase nsym =>
    rw [show exec (.decicdf tbase nsym) s = execDecicdf tbase nsym s from rfl, execDecicdf] at h
    split at h
    · exact whenReady_fetched_le hs runDecicdf_fetched_le h
    · cases h
      exact Nat.le_add_right s.fetched 3
  | lutrd idx =>
    cases h
    exact le_rfl

/-- Settles O42: `CoreStep` has the bytes taken from the front of the stream, and the count of them bounds their number. -/
theorem byteRequestsAreInOrderAndBounded : Obligations.ByteRequestsAreInOrderAndBounded := by
  unfold Obligations.ByteRequestsAreInOrderAndBounded
  intro i s t h
  obtain ⟨n, hn, hstream, hfetched⟩ := (exec_coreStep h).source
  refine ⟨n, hn, hstream, hfetched, fun hs => ?_⟩
  have hbound : n ≤ mostBytes i := by
    have := exec_fetched_le hs h
    omega
  cases i with
  | init => exact hbound
  | declogp logp => exact hbound
  | decicdf tbase nsym => exact hbound
  | lutrd idx => exact Nat.le_zero.mp hbound

/-! ### What `DECICDF` reads of the table -/

/-- The state with another table memory. -/
def withTable (m : TableMem) (s : State) : State := { s with table := m }

variable {m : TableMem}

@[simp] theorem withTable_state (m : TableMem) (s : State) : (withTable m s).state = s.state := rfl
@[simp] theorem withTable_stream (m : TableMem) (s : State) : (withTable m s).stream = s.stream := rfl
@[simp] theorem withTable_fetched (m : TableMem) (s : State) : (withTable m s).fetched = s.fetched := rfl

/-- From equal sources, equal streams at the end leave equal counts of bytes taken. -/
theorem Took.fetched_eq {n n' : Nat} (h : Took n s u) (h' : Took n' s' t) (hstart : s'.stream = s.stream)
    (hcount : s'.fetched = s.fetched) (hend : t.stream = u.stream) : t.fetched = u.fetched := by
  obtain ⟨-, hst, hf, hn⟩ := h
  obtain ⟨-, hst', hf', hn'⟩ := h'
  have hlen := congrArg List.length hend
  rw [hst, hst', List.length_drop, List.length_drop, hstart] at hlen
  rw [hstart] at hn'
  omega

/-- Equal coders at the end, from states that differ in the table alone, belong to states that differ in it alone. -/
theorem Took.eq_withTable {n n' : Nat} (h : Took n s u) (h' : Took n' (withTable m s) t) (hcoder : CoderEq u t) :
    t = withTable m u := by
  obtain ⟨hrng, hval, hcbyte, hccnt, hstream⟩ := hcoder
  have hfetched := h.fetched_eq h' (withTable_stream m s) (withTable_fetched m s) hstream
  obtain ⟨hu, -⟩ := h
  obtain ⟨ht, -⟩ := h'
  unfold SameButCoder at hu ht
  rw [ht, hu, hrng, hval, hcbyte, hccnt, hstream, hfetched]
  rfl

theorem OutcomeAgree.eq_withTable {w : Word} {o o' : Host.Outcome State Fault Refusal}
    (h : OutcomeAgree (completeDecode w) s (withTable m s) o o') : o' = mapNext (withTable m) o := by
  rcases h with ⟨n, n', u, t, rfl, rfl, hu, ht, hcoder⟩ | ⟨rfl, rfl⟩
  · rw [hu.eq_withTable ht hcoder]
    rfl
  · rfl

/-- The dispatch checks read no table. -/
theorem whenReady_withTable {run : State → Host.Outcome State Fault Refusal}
    (hrun : Live s → run (withTable m s) = mapNext (withTable m) (run s)) :
    whenReady (withTable m s) run = mapNext (withTable m) (whenReady s run) := by
  rcases whenReady_cases s run with ⟨hs, he⟩ | ⟨hs, he⟩ | ⟨hlive, he⟩
  · rw [he, whenReady, withTable_state, hs]
    rfl
  · rw [he, whenReady, withTable_state, hs]
    rfl
  · rw [he, whenReady_live (s := withTable m s) hlive]
    exact hrun hlive

/-- A table memory that agrees on the window of a `DECICDF` takes the place of the other in its outcome, and nothing else
changes (20_memory.md R52). -/
theorem execDecicdf_withTable {tbase : Addr} {nsym : BitVec 8}
    (hm : ∀ a : Addr, inWindow tbase nsym a = true → Live s → tblRead m a = tblRead s.table a) :
    execDecicdf tbase nsym (withTable m s) = mapNext (withTable m) (execDecicdf tbase nsym s) := by
  unfold execDecicdf
  split
  · next hl =>
    obtain ⟨hn, hw⟩ := hl
    refine whenReady_withTable fun hlive => ?_
    have hcoder : CoderEq s (withTable m s) := ⟨rfl, rfl, rfl, rfl, rfl⟩
    rcases runDecicdf_agree hn hw hcoder (fun a ha => hm a ha hlive) with ⟨hr, hr'⟩ | hagree
    · rw [hr, hr']
      rfl
    · exact hagree.eq_withTable
  · rfl

/-- Settles O34: the outcome on the other memory is the outcome itself with that memory, free values and all. -/
theorem decicdfReadsOnlyItsWindow : Obligations.DecicdfReadsOnlyItsWindow := by
  unfold Obligations.DecicdfReadsOnlyItsWindow
  intro tbase nsym s m hm
  have h : exec (.decicdf tbase nsym) { s with table := m } = mapNext (withTable m) (exec (.decicdf tbase nsym) s) :=
    execDecicdf_withTable hm
  rw [h]
  cases exec (.decicdf tbase nsym) s <;> rfl

/-! ### Reads and writes of the table -/

theorem tblRead_tblWrite {m : TableMem} (a b : Addr) (v : Word) (hw : TableMem.wf m = true) :
    tblRead (tblWrite m a v) b = if b = a then v else tblRead m b := by
  have hkey : a.toNat = b.toNat ↔ b = a := BitVec.toNat_inj.trans eq_comm
  simp only [tblRead, tblWrite, TableMem.readAt_writeAt a.toNat b.toNat v hw, hkey]

/-- Settles O50: the laws of `TableMem.writeAt`, at entry addresses. -/
theorem tableReadAfterWrite : Obligations.TableReadAfterWrite := by
  unfold Obligations.TableReadAfterWrite
  exact fun m a b v hw => ⟨tblWrite_wf a v hw, tblRead_tblWrite a b v hw⟩

/-- Settles O51: every key that `TableMem.eq_of_readAt` asks about is an entry address. -/
theorem equalTablesAreEqualLists : Obligations.EqualTablesAreEqualLists := by
  unfold Obligations.EqualTablesAreEqualLists
  intro m m' hw hw' hread
  refine TableMem.eq_of_readAt hw hw' fun a ha => ?_
  have hlt : a < 2 ^ 16 := Nat.lt_succ_of_le ha
  have haddr := hread (BitVec.ofNat 16 a)
  rwa [tblRead, tblRead, BitVec.toNat_ofNat, Nat.mod_eq_of_lt hlt] at haddr

/-! ### The host's steps, `BUSY` 0 and 1 -/

variable {f : InFlight} {a : Addr} {v : Word} {q : List HostStep}

/-- Settles O48: each is one host step, and what the write leaves is a table read after a write. -/
theorem hostStepsWhileIdle : Obligations.HostStepsWhileIdle := by
  unfold Obligations.HostStepsWhileIdle
  constructor
  · intro s bytes q hi hq
    exact step_idle_cons hi hq
  · intro s a v q hi hq
    exact ⟨tblWrite s.table a v, step_idle_cons hi hq,
      fun hw => ⟨tblWrite_wf a v hw, fun b => tblRead_tblWrite a b v hw⟩⟩

/-- The window of the command in flight is the operands of its `DECICDF` (20_memory.md R52). -/
theorem runningWindow_decicdf {w : Word} {tbase : Addr} {nsym : BitVec 8} (hd : decodeWord w = .legal (.decicdf tbase nsym))
    (a : Addr) : runningWindow w a = true ↔ tbase.toNat ≤ a.toNat ∧ a.toNat ≤ tbase.toNat + nsym.toNat := by
  rw [runningWindow, hd]
  simp only [inWindow, Bool.and_eq_true, decide_eq_true_eq]

/-- Any other word in flight has no window. -/
theorem runningWindow_other {w : Word} (hd : ∀ tbase nsym, decodeWord w ≠ .legal (.decicdf tbase nsym)) (a : Addr) :
    runningWindow w a = false := by
  unfold runningWindow
  split
  · next hdec => exact absurd hdec (hd _ _)
  · rfl
  · rfl
  · rfl
  · rfl

theorem step_busy_writeTable_inside (hf : s.inFlight = some f) (hq : s.host = .writeTable a v :: q)
    (hw : runningWindow f.command a = true) : step s = .fault .tableWriteInRunningWindow := by
  rw [step_busy hf]
  simp only [busyStep, hq, hw, if_true]

theorem step_busy_writeTable_outside (hf : s.inFlight = some f) (hq : s.host = .writeTable a v :: q)
    (hw : runningWindow f.command a = false) : step s = .next (writeTable a v { s with host := q }) := by
  rw [step_busy hf]
  simp only [busyStep, hq, hw, Bool.false_eq_true, if_false]

theorem step_busy_setStream {bytes : List Byte} (hf : s.inFlight = some f) (hq : s.host = .setStream bytes :: q) :
    step s = .fault .streamChangedWhileBusy := by
  rw [step_busy hf]
  simp only [busyStep, hq]

/-- With no host step that the rules let the host take, the command in flight completes (70_reset_and_hazards.md R199). -/
theorem step_busy_completes (hf : s.inFlight = some f)
    (hq : s.host = [] ∨ (∃ w, s.host = .command w :: q) ∨ ∃ w n, s.host = .resetDuring w n :: q) :
    step s = executeWord f.command (beforeCommand f s) := by
  rw [step_busy hf]
  rcases hq with hq | ⟨w, hq⟩ | ⟨w, n, hq⟩ <;> simp only [busyStep, hq, completeInFlight]

/-- Settles O49: one equation of `busyStep` for each host step, and the word in flight completes as its command or as an
illegal word. -/
theorem hostStepsWhileBusy : Obligations.HostStepsWhileBusy := by
  unfold Obligations.HostStepsWhileBusy
  intro s f q hf
  refine ⟨fun tbase nsym a v hd hq => ⟨fun hin => ?_, fun hout => ?_⟩, fun a v hd hq => ?_,
    fun bytes hq => step_busy_setStream hf hq, fun hq => ⟨fun i hd => ?_, fun hill => ?_⟩⟩
  · exact step_busy_writeTable_inside hf hq ((runningWindow_decicdf hd a).mpr hin)
  · have hnot : ¬ runningWindow f.command a = true := by
      rw [runningWindow_decicdf hd]
      omega
    exact step_busy_writeTable_outside hf hq (Bool.eq_false_iff.mpr hnot)
  · exact step_busy_writeTable_outside hf hq (runningWindow_other hd a)
  · exact (step_busy_completes hf hq).trans (executeWord_legal hd)
  · exact (step_busy_completes hf hq).trans (executeWord_illegal hill _)

end Sys2Proof.Machine
end

section
/-! PROOFS. The encoding (30_encoding.md R70 to R83): the words of `Legal(w)` are the encodings of the well-formed commands, and
with `decodeWord_encode` and `legalWord_of_decodeWord` this fixes what decodes. -/

namespace Sys2Proof

variable {w : Word} {i : Instr}

/-! ### A word with its opcode and its reserved bits 0 is the encoding of its fields (30_encoding.md R73 to R78) -/

theorem encode_init_eq (hop : w.toNat / 2 ^ 28 = 1) (hzero : w.toNat % 2 ^ 28 = 0) : encode .init = w := by
  apply BitVec.eq_of_toNat_eq
  rw [encode_init_toNat]
  omega

theorem encode_declogp_field (hop : w.toNat / 2 ^ 28 = 2) (hzero : w.toNat % 2 ^ 28 / 2 ^ 5 = 0) :
    encode (.declogp (w.extractLsb' 0 5)) = w := by
  apply BitVec.eq_of_toNat_eq
  rw [encode_declogp_toNat, field_toNat]
  omega

theorem encode_decicdf_fields (hop : w.toNat / 2 ^ 28 = 3) (hzero : w.toNat % 2 ^ 28 / 2 ^ 24 = 0) :
    encode (.decicdf (w.extractLsb' 8 16) (w.extractLsb' 0 8)) = w := by
  apply BitVec.eq_of_toNat_eq
  rw [encode_decicdf_toNat, field_toNat, field_toNat]
  omega

theorem encode_lutrd_field (hop : w.toNat / 2 ^ 28 = 4) (hzero : w.toNat % 2 ^ 28 / 2 ^ 8 = 0) :
    encode (.lutrd (w.extractLsb' 0 8)) = w := by
  apply BitVec.eq_of_toNat_eq
  rw [encode_lutrd_toNat, field_toNat]
  omega

/-! ### The operand fields of a word are legal when their numbers are (30_encoding.md R74 to R76) -/

theorem wellFormed_declogp_field (hlogp : w.toNat % 2 ^ 5 ≤ 23) : Instr.WellFormed (.declogp (w.extractLsb' 0 5)) := by
  rw [wellFormed_declogp, logpLegal, field_toNat, Config.logpMax]
  omega

theorem wellFormed_decicdf_fields (hnsym : 1 ≤ w.toNat % 2 ^ 8)
    (hwindow : w.toNat % 2 ^ 24 / 2 ^ 8 + w.toNat % 2 ^ 8 ≤ 0xFFFF) :
    Instr.WellFormed (.decicdf (w.extractLsb' 8 16) (w.extractLsb' 0 8)) := by
  rw [wellFormed_decicdf, nsymLegal, windowLegal, field_toNat, field_toNat, Config.addrMax]
  omega

/-- The word of a well-formed command decodes to it, so to no other (30_encoding.md R73 to R78). -/
theorem decodeWord_of_encode_eq (hwf : i.WellFormed) (he : encode i = w) : decodeWord w = .legal i :=
  he ▸ decodeWord_encode hwf

namespace Machine

/-- Each clause of `Legal(w)` makes the word the encoding of its own fields (30_encoding.md R79). -/
theorem exists_encode_eq_of_legalWord (h : legalWord w = true) : ∃ i : Instr, i.WellFormed ∧ encode i = w := by
  unfold legalWord at h
  split at h
  · next hop => exact ⟨.init, wellFormed_init, encode_init_eq hop (of_decide_eq_true h)⟩
  · next hop =>
    simp only [Bool.and_eq_true, decide_eq_true_eq] at h
    obtain ⟨hzero, hlogp⟩ := h
    exact ⟨_, wellFormed_declogp_field hlogp, encode_declogp_field hop hzero⟩
  · next hop =>
    simp only [Bool.and_eq_true, decide_eq_true_eq] at h
    obtain ⟨⟨hzero, hnsym⟩, hwindow⟩ := h
    exact ⟨_, wellFormed_decicdf_fields hnsym hwindow, encode_decicdf_fields hop hzero⟩
  · next hop => exact ⟨_, wellFormed_lutrd _, encode_lutrd_field hop (of_decide_eq_true h)⟩
  · cases h

/-- Settles O1: `decodeWord_encode`, format by format. -/
theorem decodeOfEncodeIsTheInstruction : Obligations.DecodeOfEncodeIsTheInstruction := by
  unfold Obligations.DecodeOfEncodeIsTheInstruction
  exact fun _ hwf => decodeWord_encode hwf

/-- Settles O2: a word that decodes is legal, so it is the encoding of a well-formed command, and that command is the one it
decodes to. -/
theorem decodedWordIsWellFormedAndEncodesBack : Obligations.DecodedWordIsWellFormedAndEncodesBack := by
  unfold Obligations.DecodedWordIsWellFormedAndEncodesBack
  intro w i hd
  obtain ⟨j, hwf, he⟩ := exists_encode_eq_of_legalWord (legalWord_of_decodeWord hd)
  have hij : Decoded.legal i = .legal j := hd.symm.trans (decodeWord_of_encode_eq hwf he)
  cases hij
  exact ⟨hwf, he⟩

/-- Settles O3: the decoder's checks give the clauses of `Legal(w)`, and a legal word is an encoding, which decodes. -/
theorem wordDecodesExactlyWhenLegal : Obligations.WordDecodesExactlyWhenLegal := by
  unfold Obligations.WordDecodesExactlyWhenLegal
  intro w
  constructor
  · rintro ⟨i, hd⟩
    exact legalWord_of_decodeWord hd
  · intro h
    obtain ⟨i, hwf, he⟩ := exists_encode_eq_of_legalWord h
    exact ⟨i, decodeWord_of_encode_eq hwf he⟩

/-- A worked encoding of R83: a well-formed command and its word determine each other. -/
theorem decodes_and_encodes (hwf : i.WellFormed) (he : encode i = w) : decodeWord w = .legal i ∧ encode i = w :=
  ⟨decodeWord_of_encode_eq hwf he, he⟩

/-- Settles O4: each legal example is a well-formed command with its word, and each illegal word fails its format's check. -/
theorem workedEncodingsDecode : Obligations.WorkedEncodingsDecode := by
  unfold Obligations.WorkedEncodingsDecode
  have hwraps : decodeWord 0x30FF01FF = .illegal .windowWraps ∧ encode (.decicdf 0xFF01 255) = 0x30FF01FF := by decide
  have hillegal : decodeWord 0x00000000 = .illegal .reservedOpcode ∧ decodeWord 0x10000001 = .illegal .reservedBits ∧
      decodeWord 0x20000018 = .illegal .logpRange ∧ decodeWord 0x30000100 = .illegal .noSymbols ∧
      decodeWord 0x50000000 = .illegal .reservedOpcode := by decide
  exact ⟨decodes_and_encodes rfl rfl, decodes_and_encodes rfl rfl, decodes_and_encodes rfl rfl,
    decodes_and_encodes rfl rfl, decodes_and_encodes rfl rfl, decodes_and_encodes rfl rfl,
    decodes_and_encodes rfl rfl, hwraps, decodes_and_encodes rfl rfl, decodes_and_encodes rfl rfl, hillegal⟩

end Machine

end Sys2Proof
end

section
/-! PROOFS. The renormalization_lut (40_lut.md R100 to R107): an entry by the range of its index, and the command that reads
it. -/

namespace Sys2Proof.Machine

/-! ### An entry's shift (40_lut.md R101) -/

/-- Shifting an index by less than takes it into the top half of a byte leaves it in the lower half. -/
theorem mul_two_pow_lt_half {n s k : Nat} (hlt : n * 2 ^ s < 256) (hk : k < s) : n * 2 ^ k < 128 := by
  have hle : n * 2 ^ (k + 1) ≤ n * 2 ^ s := Nat.mul_le_mul_left n (Nat.pow_le_pow_right (by decide) hk)
  rw [pow_succ, ← mul_assoc] at hle
  omega

/-- The shift that takes the index into the top half of a byte is its entry: it reaches 128 and no smaller one does. -/
theorem lutShift_of_bounds {i : Byte} {s : Nat} (hs : s < 8) (hge : 128 ≤ i.toNat * 2 ^ s)
    (hlt : i.toNat * 2 ^ s < 256) : lutShift i = BitVec.ofNat 4 s := by
  have hfind : (List.range 8).find? (fun k => decide (128 ≤ i.toNat * 2 ^ k)) = some s := by
    refine List.find?_range_eq_some.mpr ⟨decide_eq_true hge, List.mem_range.mpr hs, fun k hk => ?_⟩
    have hbelow := mul_two_pow_lt_half hlt hk
    simpa using hbelow
  rw [lutShift, hfind, Option.getD_some]

/-- The leading zeros of an index other than 0 are the shift that takes it into the top half of a byte. -/
theorem clz_bounds {i : Byte} (hi : i ≠ 0) :
    i.clz.toNat < 8 ∧ 128 ≤ i.toNat * 2 ^ i.clz.toNat ∧ i.toNat * 2 ^ i.clz.toNat < 256 := by
  have hc : i.clz.toNat < 8 := BitVec.lt_def.mp (BitVec.clz_lt_iff_ne_zero.mpr hi)
  have hge : 2 ^ (7 - i.clz.toNat) ≤ i.toNat := BitVec.two_pow_sub_clz_le_toNat_of_ne_zero (by decide) hi
  have hlt : i.toNat < 2 ^ (8 - i.clz.toNat) := BitVec.toNat_lt_two_pow_sub_clz
  refine ⟨hc, ?_, ?_⟩
  · calc 128 = 2 ^ (7 - i.clz.toNat) * 2 ^ i.clz.toNat := (pow_sub_mul_pow 2 (Nat.le_of_lt_succ hc)).symm
      _ ≤ i.toNat * 2 ^ i.clz.toNat := Nat.mul_le_mul_right _ hge
  · calc i.toNat * 2 ^ i.clz.toNat < 2 ^ (8 - i.clz.toNat) * 2 ^ i.clz.toNat :=
          Nat.mul_lt_mul_of_pos_right hlt (Nat.two_pow_pos _)
      _ = 256 := pow_sub_mul_pow 2 (Nat.le_of_lt hc)

theorem lutShift_toNat_eq_clz (i : Byte) : (lutShift i).toNat = i.clz.toNat := by
  by_cases hi : i = 0
  · subst hi
    decide
  · obtain ⟨hc, hge, hlt⟩ := clz_bounds hi
    rw [lutShift_of_bounds hc hge hlt, BitVec.toNat_ofNat]
    omega

/-- Settles O9: the shift is the number of leading zeros, which takes an index other than 0 into the top half of a byte. -/
theorem lutShiftIsTheSmallestShift : Obligations.LutShiftIsTheSmallestShift := by
  unfold Obligations.LutShiftIsTheSmallestShift
  intro i
  refine ⟨fun hi => ?_, by rw [lutShift_zero]; rfl, lutShift_toNat_eq_clz i⟩
  obtain ⟨-, hge, hlt⟩ := clz_bounds hi
  rw [lutShift_toNat_eq_clz]
  exact ⟨hge, fun _ hk => mul_two_pow_lt_half hlt hk⟩

/-! ### The table by ranges (40_lut.md R104) -/

/-- A row of R104 but its first: the shift, and the mask of R102. -/
theorem lutEntry_of_bounds {i : Byte} (s : Nat) (hs : s < 8) (hge : 128 ≤ i.toNat * 2 ^ s)
    (hlt : i.toNat * 2 ^ s < 256) : lutShift i = BitVec.ofNat 4 s ∧ lutAdd i = BitVec.ofNat 8 (2 ^ s - 1) := by
  have hshift := lutShift_of_bounds hs hge hlt
  have hnum : (lutShift i).toNat = s := by
    rw [hshift, BitVec.toNat_ofNat]
    omega
  exact ⟨hshift, by rw [lutAdd, hnum]⟩

/-- Settles O10: index 0 has the entry of decision D10, and every other row is the indexes its shift takes into the top half
of a byte. -/
theorem lutContentsByRange : Obligations.LutContentsByRange := by
  unfold Obligations.LutContentsByRange
  intro i
  have hi := i.isLt
  refine ⟨fun h => ?_, fun h => lutEntry_of_bounds 7 (by decide) (by omega) (by omega),
    fun h => lutEntry_of_bounds 6 (by decide) (by omega) (by omega),
    fun h => lutEntry_of_bounds 5 (by decide) (by omega) (by omega),
    fun h => lutEntry_of_bounds 4 (by decide) (by omega) (by omega),
    fun h => lutEntry_of_bounds 3 (by decide) (by omega) (by omega),
    fun h => lutEntry_of_bounds 2 (by decide) (by omega) (by omega),
    fun h => lutEntry_of_bounds 1 (by decide) (by omega) (by omega),
    fun h => lutEntry_of_bounds 0 (by decide) (by omega) (by omega)⟩
  have hzero : i = 0 := BitVec.eq_of_toNat_eq h
  rw [hzero]
  exact ⟨lutShift_zero, lutAdd_zero⟩

/-! ### `LUTRD` (40_lut.md R106) -/

/-- The word of an entry as a number: the mask above four zero bits and the shift. -/
theorem lutWord_eq (i : Byte) : lutWord i = BitVec.ofNat 32 ((lutAdd i).toNat * 2 ^ 8 + (lutShift i).toNat) := by
  have hmask : (lutAdd i ++ 0#4).toNat = (lutAdd i).toNat * 2 ^ 4 := toNat_append_eq (lutAdd i) 0#4
  have hword : (lutAdd i ++ 0#4 ++ lutShift i).toNat = (lutAdd i).toNat * 2 ^ 8 + (lutShift i).toNat := by
    rw [toNat_append_eq, hmask]
    omega
  apply BitVec.eq_of_toNat_eq
  rw [lutWord, BitVec.toNat_setWidth, hword, BitVec.toNat_ofNat]

/-- `LUTRD` leaves the word of its entry in `RESULT`, sets `ERR` to `OK`, and changes nothing else. -/
theorem exec_lutrd {idx : Byte} {w : Word} (s : State) (hw : lutWord idx = w) :
    exec (.lutrd idx) s = .next { s with result := w, err := .ok } := by
  subst hw
  rfl

/-- Settles O11: `LUTRD` completes with the word of its entry. -/
theorem lutrdReadsOneEntry : Obligations.LutrdReadsOneEntry := by
  unfold Obligations.LutrdReadsOneEntry
  exact fun idx s => exec_lutrd s (lutWord_eq idx)

/-- Settles O12: the words of the twelve entries are constants, and each is what its command leaves in `RESULT`. -/
theorem lutrdWorkedValues : Obligations.LutrdWorkedValues := by
  unfold Obligations.LutrdWorkedValues
  intro s
  and_intros <;> exact exec_lutrd s (by decide)

end Sys2Proof.Machine
end

section
/-! PROOFS. What `INIT` writes and when it runs out of input (41_lifecycle_init.md R113 to R115), that it depends on the stream
alone (R110, R112), and the lifecycle as a whole (R116, R117). -/

namespace Sys2Proof.Machine

variable {s s' t u u' : State}

/-! ### Bit strings of bytes -/

/-- The first bits of a bit string are its number without the last bits. -/
theorem bitsToNat_take (l : List Nat) (n : Nat) (h : ∀ b ∈ l, b < 2) :
    bitsToNat (l.take n) = bitsToNat l / 2 ^ (l.length - n) := by
  have hsplit := bitsToNat_append (l.take n) (l.drop n)
  have hlow := bitsToNat_lt (l.drop n) fun x hx => h x (List.mem_of_mem_drop hx)
  rw [List.take_append_drop] at hsplit
  rw [List.length_drop] at hsplit hlow
  rw [hsplit, Nat.mul_comm, Nat.mul_add_div (Nat.two_pow_pos _), Nat.div_eq_of_lt hlow, Nat.add_zero]

/-- The bits of a byte are the byte (20_memory.md R55). -/
theorem bitsToNat_byteBits (b : Byte) : bitsToNat (byteBits b) = b.toNat := by
  have hb := b.isLt
  simp [bitsToNat, byteBits, List.range_succ]
  omega

theorem bitsToNat_byteBits_append (b : Byte) (l : List Nat) :
    bitsToNat (byteBits b ++ l) = b.toNat * 2 ^ l.length + bitsToNat l := by
  rw [bitsToNat_append, bitsToNat_byteBits]

/-- The first 31 bits of a stream are its first four bytes without the last bit. -/
theorem bitsToNat_take_31 (b0 b1 b2 b3 : Byte) (rest : List Byte) :
    bitsToNat (((b0 :: b1 :: b2 :: b3 :: rest).flatMap byteBits).take 31) =
      (b0.toNat * 2 ^ 24 + b1.toNat * 2 ^ 16 + b2.toNat * 2 ^ 8 + b3.toNat) / 2 := by
  have hfour : ((b0 :: b1 :: b2 :: b3 :: rest).flatMap byteBits).take 31 =
      ([b0, b1, b2, b3].flatMap byteBits).take 31 := by
    rw [show b0 :: b1 :: b2 :: b3 :: rest = [b0, b1, b2, b3] ++ rest from rfl, List.flatMap_append,
      List.take_append_of_le_length (by simp [length_byteBits])]
  have hbits : ∀ x ∈ [b0, b1, b2, b3].flatMap byteBits, x < 2 := by
    intro x hx
    obtain ⟨b, -, hx⟩ := List.mem_flatMap.mp hx
    exact byteBits_lt b x hx
  have hvalue : bitsToNat ([b0, b1, b2, b3].flatMap byteBits) =
      b0.toNat * 2 ^ 24 + b1.toNat * 2 ^ 16 + b2.toNat * 2 ^ 8 + b3.toNat := by
    simp only [List.flatMap_cons, List.flatMap_nil, List.append_nil, bitsToNat_byteBits_append, bitsToNat_byteBits,
      List.length_append, length_byteBits]
    omega
  rw [hfour, bitsToNat_take _ _ hbits, hvalue, length_flatMap_byteBits]
  rfl

/-! ### `INIT` on the stream -/

/-- The coder `INIT` loads once it has read 7 bits of the first byte, before renormalization (41_lifecycle_init.md R113). -/
def initCoder (b : Byte) (rest : List Byte) (s : State) : State :=
  loadCoder 128 (127 - b.toNat / 2) { s with cbyte := b, ccnt := 7, stream := rest, fetched := s.fetched + 1 }

theorem initCoder_val_toNat (b : Byte) (rest : List Byte) (s : State) :
    (initCoder b rest s).val.toNat = 127 - b.toNat / 2 := toNat_ofNat_of_lt (by omega)

theorem execInit_nil (hs : s.stream = []) : execInit s = .next (raiseExhausted (drained s)) := by
  have hempty : Took 0 s (emptyCursor s) := ⟨rfl, rfl, rfl, Nat.zero_le _⟩
  unfold execInit
  rcases readBits_cases Config.initBits (emptyCursor s) with ⟨b, t, -, -, -, -, -, hn⟩ | ⟨t, he, ht⟩
  · rw [emptyCursor_ccnt, emptyCursor_stream, hs] at hn
    exact absurd hn (by decide)
  · rw [he]
    simp only [ht, hempty.drained]

theorem execInit_cons {b : Byte} {rest : List Byte} (hs : s.stream = b :: rest) :
    execInit s = finish completeInit (normalize (initCoder b rest s)) := by
  rw [execInit, Config.initBits, readBits_seven (emptyCursor s) b rest rfl hs]
  rfl

/-- `INIT` behind its first byte: three renormalization steps, or the stream ends in them (41_lifecycle_init.md R114, R115). -/
theorem execInit_cons_cases {b : Byte} {rest : List Byte} (hs : s.stream = b :: rest) :
    (3 ≤ rest.length ∧ execInit s = .next (completeInit (normalizedBy 3 (initCoder b rest s)))) ∨
    (rest.length < 3 ∧ execInit s = .next (raiseExhausted (drained s))) := by
  have hval : 127 - b.toNat / 2 < 128 := by omega
  obtain ⟨h1, h31, hv, hc⟩ : Renormalizable (initCoder b rest s) :=
    renormalizable_loadCoder (by decide) (by decide) hval rfl
  have hsteps : normSteps (initCoder b rest s).rng.toNat = 3 := rfl
  rw [execInit_cons hs]
  rcases normalize_closed (initCoder b rest s) h1 h31 hv hc with ⟨hlen, he, -, -⟩ | ⟨hlen, t, he, ht⟩
  · rw [hsteps] at hlen he
    exact .inl ⟨hlen, by rw [he, finish]⟩
  · rw [hsteps] at hlen
    have htook : Took 1 s (initCoder b rest s) := ⟨rfl, by rw [hs]; rfl, rfl, by rw [hs]; exact Nat.succ_pos _⟩
    exact .inr ⟨hlen, by rw [he, finish, ht, htook.drained]⟩

/-- `INIT` completes on four bytes or more (41_lifecycle_init.md R114). -/
theorem execInit_completes (h : 4 ≤ s.stream.length) : ∃ u, execInit s = .next (completeInit u) := by
  cases hs : s.stream with
  | nil =>
    rw [hs] at h
    exact absurd h (by decide)
  | cons b rest =>
    rw [hs, List.length_cons] at h
    rcases execInit_cons_cases hs with ⟨-, he⟩ | ⟨hlen, -⟩
    · exact ⟨_, he⟩
    · omega

/-- `INIT` runs out of input below four bytes (41_lifecycle_init.md R115). -/
theorem execInit_runs_out (h : s.stream.length < 4) : execInit s = .next (raiseExhausted (drained s)) := by
  cases hs : s.stream with
  | nil => exact execInit_nil hs
  | cons b rest =>
    rw [hs, List.length_cons] at h
    rcases execInit_cons_cases hs with ⟨hlen, -⟩ | ⟨-, he⟩
    · omega
    · exact he

/-- The first 31 bits are the 7 that initialization reads, then the 24 that renormalization reads
(41_lifecycle_init.md R114). -/
theorem bitsToNat_take_31_cons (b : Byte) (rest : List Byte) (s : State) (h : 3 ≤ rest.length) :
    bitsToNat (((b :: rest).flatMap byteBits).take 31) =
      b.toNat / 2 * 2 ^ 24 + nextBits 24 (initCoder b rest s) := by
  have hunread : unreadBits (initCoder b rest s) = (byteBits b).drop 7 ++ rest.flatMap byteBits := rfl
  have hsplit : ((b :: rest).flatMap byteBits).take 31 =
      (byteBits b).take 7 ++ (unreadBits (initCoder b rest s)).take 24 := by
    have hseven : ((byteBits b).take 7).length = 7 := by rw [List.length_take, length_byteBits]; rfl
    rw [List.flatMap_cons, ← List.take_append_drop 7 (byteBits b), List.append_assoc, List.take_append, hseven,
      List.take_append_drop, hunread, List.take_take]
    rfl
  have hlen : ((unreadBits (initCoder b rest s)).take 24).length = 24 := by
    rw [List.length_take, hunread, List.length_append, length_flatMap_byteBits]
    omega
  rw [hsplit, bitsToNat_append, hlen, bitsToNat_take _ _ (byteBits_lt b), bitsToNat_byteBits, length_byteBits]
  rfl

/-- What `INIT` leaves on four bytes or more: the complement of the first 31 bits in `VAL` (41_lifecycle_init.md R114). -/
theorem normalizedBy_initCoder (b0 b1 b2 b3 : Byte) (rest : List Byte) (s : State) :
    normalizedBy 3 (initCoder b0 (b1 :: b2 :: b3 :: rest) s) =
      { s with
        rng := 0x80000000
        val := BitVec.ofNat 32
          (0x7FFFFFFF - bitsToNat (((b0 :: b1 :: b2 :: b3 :: rest).flatMap byteBits).take 31))
        cbyte := b3, ccnt := 7, stream := rest, fetched := s.fetched + 4 } := by
  have hbits := bitsToNat_take_31_cons b0 (b1 :: b2 :: b3 :: rest) s (by simp)
  have hnext := nextBits_lt 24 (initCoder b0 (b1 :: b2 :: b3 :: rest) s)
  have hb := b0.isLt
  have hval : (127 - b0.toNat / 2) * 256 ^ 3 + (256 ^ 3 - 1 - nextBits 24 (initCoder b0 (b1 :: b2 :: b3 :: rest) s)) =
      0x7FFFFFFF - bitsToNat (((b0 :: b1 :: b2 :: b3 :: rest).flatMap byteBits).take 31) := by
    omega
  have hrng : (initCoder b0 (b1 :: b2 :: b3 :: rest) s).rng.toNat = 128 := rfl
  rw [normalizedBy, initCoder_val_toNat, hval, hrng]
  simp [loadCoder, takeBytes, initCoder]

/-- Settles O22: seven bits and three renormalization steps at once, over the coder `INIT` loads. -/
theorem initOnFourBytes : Obligations.InitOnFourBytes := by
  unfold Obligations.InitOnFourBytes
  intro s b0 b1 b2 b3 rest hs
  refine ⟨by rw [hs, bitsToNat_take_31], ?_⟩
  rcases execInit_cons_cases hs with ⟨-, he⟩ | ⟨hlen, -⟩
  · rw [normalizedBy_initCoder, ← hs] at he
    exact he
  · simp only [List.length_cons] at hlen
    omega

/-- Settles O23: below four bytes `INIT` ends with the stream drained. -/
theorem initRunsOutBelowFourBytes : Obligations.InitRunsOutBelowFourBytes := by
  unfold Obligations.InitRunsOutBelowFourBytes
  exact fun s h => ⟨raiseExhausted (drained s), execInit_runs_out h, rfl⟩

/-! ### What a lifetime leaves to the next -/

/-- `s'` is `s` but for the registers of a decoder lifetime (41_lifecycle_init.md R110). -/
def SameButLifetime (s s' : State) : Prop :=
  s' = { s with rng := s'.rng, val := s'.val, cbyte := s'.cbyte, ccnt := s'.ccnt, state := s'.state, err := s'.err }

/-- `s'` is `s` but for `STATE` and `ERR`. -/
def SameButStatus (s s' : State) : Prop := s' = { s with state := s'.state, err := s'.err }

theorem SameButLifetime.stream (h : SameButLifetime s s') : s'.stream = s.stream := by
  unfold SameButLifetime at h
  rw [h]

theorem SameButLifetime.fetched (h : SameButLifetime s s') : s'.fetched = s.fetched := by
  unfold SameButLifetime at h
  rw [h]

theorem SameButLifetime.table (h : SameButLifetime s s') : s'.table = s.table := by
  unfold SameButLifetime at h
  rw [h]

/-- Equal coders at the end, from states that differ in the lifetime's registers, leave `STATE` and `ERR` to differ. -/
theorem Took.sameButStatus {n n' : Nat} (h : Took n s u) (h' : Took n' s' u') (hs : SameButLifetime s s')
    (hcoder : CoderEq u u') : SameButStatus u u' := by
  obtain ⟨hrng, hval, hcbyte, hccnt, hstream⟩ := hcoder
  have hfetched := h.fetched_eq h' hs.stream hs.fetched hstream
  obtain ⟨hu, -⟩ := h
  obtain ⟨hu', -⟩ := h'
  unfold SameButCoder at hu hu'
  unfold SameButLifetime at hs
  unfold SameButStatus
  rw [hu', hrng, hval, hcbyte, hccnt, hstream, hfetched, hs, hu]

theorem completeInit_eq (h : SameButStatus s s') : completeInit s' = completeInit s := by
  rw [h]
  rfl

theorem completeDecode_eq (w : Word) (h : SameButStatus s s') : completeDecode w s' = completeDecode w s := by
  rw [h]
  rfl

theorem raiseExhausted_drained_eq (h : SameButLifetime s s') :
    raiseExhausted (drained s') = raiseExhausted (drained s) := by
  rw [h]
  rfl

/-- A completion that writes `STATE` and `ERR` leaves nothing of the lifetime before but what its coder held. -/
theorem OutcomeAgree.eq {complete : State → State} {o o' : Host.Outcome State Fault Refusal}
    (h : OutcomeAgree complete s s' o o') (hs : SameButLifetime s s')
    (hcomplete : ∀ {u u'}, SameButStatus u u' → complete u' = complete u) : o' = o := by
  rcases h with ⟨n, n', u, u', rfl, rfl, hu, hu', hcoder⟩ | ⟨rfl, rfl⟩
  · rw [hcomplete (hu.sameButStatus hu' hs hcoder)]
  · rw [raiseExhausted_drained_eq hs]

/-- `INIT` forgets the lifetime before (41_lifecycle_init.md R112). -/
theorem execInit_eq (hs : SameButLifetime s s') : execInit s' = execInit s :=
  (execInit_agree hs.stream).eq hs completeInit_eq

/-- Settles O24: the outcomes are equal, free values and all. -/
theorem initForgetsThePreviousLifetime : Obligations.InitForgetsThePreviousLifetime := by
  unfold Obligations.InitForgetsThePreviousLifetime
  intro s r v cb cc st e
  exact congrArg (mapNext determined) (execInit_eq rfl)

/-! ### `STATE` and `ERR` after a decode -/

/-- The ways a decode command that answers a next state ends, each with its ground (60_exceptions.md R162 to R166): `legal` says
that its operands are in range. -/
inductive DecodeEnds (legal : Prop) (s : State) : State → Prop where
  | illegal (hl : ¬ legal) : DecodeEnds legal s (raiseIllegal s)
  | notReady (hl : legal) (hs : s.state = .uninit) : DecodeEnds legal s (raiseNotReady s)
  | stillExhausted (hl : legal) (hs : s.state = .exhausted) : DecodeEnds legal s (reportExhausted s)
  | decode (w : Word) (u : State) (hl : legal) (hs : Live s) : DecodeEnds legal s (completeDecode w u)
  | drained (hl : legal) (hs : Live s) : DecodeEnds legal s (raiseExhausted (drained s))

theorem execDeclogp_ends {logp : BitVec 5} (h : execDeclogp logp s = .next t) : DecodeEnds (logpLegal logp) s t := by
  have ends {u : State} (he : execDeclogp logp s = .next u) (hu : DecodeEnds (logpLegal logp) s u) :
      DecodeEnds (logpLegal logp) s t := by
    cases he.symm.trans h
    exact hu
  rcases execDeclogp_cases logp s with ⟨hl, he⟩ | ⟨hl, hs, he⟩ | ⟨hl, hs, he⟩ | ⟨hl, hs, ⟨n, u, w, he, -⟩ | he⟩
  · exact ends he (.illegal hl)
  · exact ends he (.notReady hl hs)
  · exact ends he (.stillExhausted hl hs)
  · exact ends he (.decode w u hl hs)
  · exact ends he (.drained hl hs)

theorem execDecicdf_ends {tbase : Addr} {nsym : BitVec 8} (h : execDecicdf tbase nsym s = .next t) :
    DecodeEnds (nsymLegal nsym ∧ windowLegal tbase nsym) s t := by
  have ends {u : State} (he : execDecicdf tbase nsym s = .next u)
      (hu : DecodeEnds (nsymLegal nsym ∧ windowLegal tbase nsym) s u) :
      DecodeEnds (nsymLegal nsym ∧ windowLegal tbase nsym) s t := by
    cases he.symm.trans h
    exact hu
  rcases execDecicdf_cases tbase nsym s with
    ⟨hl, he⟩ | ⟨hl, ⟨hs, he⟩ | ⟨hs, he⟩ | ⟨-, -, he⟩ | ⟨hs, -, ⟨n, u, w, he, -⟩ | he⟩⟩
  · exact ends he (.illegal hl)
  · exact ends he (.notReady hl hs)
  · exact ends he (.stillExhausted hl hs)
  · cases he.symm.trans h
  · exact ends he (.decode w u hl hs)
  · exact ends he (.drained hl hs)

theorem Live.ne_uninit (h : Live s) : s.state ≠ .uninit := by
  rcases h with h | h <;> rw [h] <;> decide

theorem Live.ne_exhausted (h : Live s) : s.state ≠ .exhausted := by
  rcases h with h | h <;> rw [h] <;> decide

/-- The rows of the table of transitions for a decode command (41_lifecycle_init.md R116). -/
theorem DecodeEnds.transitions {legal : Prop} (h : DecodeEnds legal s t) :
    (¬ legal → t.state = s.state ∧ t.err = .illegal) ∧
    (legal → s.state = .uninit → t.state = .uninit ∧ t.err = .notReady) ∧
    (legal → s.state = .exhausted → t.state = .exhausted ∧ t.err = .exhausted) ∧
    (legal → Live s → (t.state = .decoding ∧ t.err = .ok) ∨
      (t.state = .exhausted ∧ t.err = .exhausted ∧ t.stream = [])) := by
  cases h with
  | illegal hl => simp [hl]
  | notReady hl hs => simp [hl, hs]
  | stillExhausted hl hs => simp [hl, hs]
  | decode w u hl hs => simp [hl, hs.ne_uninit, hs.ne_exhausted]
  | drained hl hs => simp [hl, hs.ne_uninit, hs.ne_exhausted, Machine.drained]

/-- Settles O38: `INIT` by the length of the stream, a decode command by the way it ends. -/
theorem stateTransitions : Obligations.StateTransitions := by
  unfold Obligations.StateTransitions
  intro i s t h
  cases i with
  | init =>
    constructor
    · intro hlen
      obtain ⟨u, he⟩ := execInit_completes hlen
      cases he.symm.trans h
      exact ⟨rfl, rfl⟩
    · intro hlen
      cases (execInit_runs_out hlen).symm.trans h
      exact ⟨rfl, rfl⟩
  | declogp logp =>
    simp only [wellFormed_declogp]
    exact (execDeclogp_ends h).transitions
  | decicdf tbase nsym =>
    simp only [wellFormed_decicdf]
    exact (execDecicdf_ends h).transitions
  | lutrd idx =>
    cases h
    exact ⟨rfl, rfl⟩

/-! ### `CONSTRUCTED` and `DECODING` -/

/-- A legal `DECLOGP` of an active lifetime depends on its coder and the stream, not on which of the two `STATE`s it is in. -/
theorem execDeclogp_live_eq {logp : BitVec 5} (hl : logpLegal logp) (hs : Live s) (hs' : Live s')
    (hsame : SameButLifetime s s') (hcoder : CoderEq s s') : execDeclogp logp s' = execDeclogp logp s := by
  rw [execDeclogp, execDeclogp, if_pos hl, if_pos hl, whenReady_live hs, whenReady_live hs']
  exact (runDeclogp_agree logp hcoder).eq hsame (completeDecode_eq _)

/-- A legal `DECICDF` of an active lifetime likewise, a malformed table among it. -/
theorem execDecicdf_live_eq {tbase : Addr} {nsym : BitVec 8} (hl : nsymLegal nsym ∧ windowLegal tbase nsym)
    (hs : Live s) (hs' : Live s') (hsame : SameButLifetime s s') (hcoder : CoderEq s s') :
    execDecicdf tbase nsym s' = execDecicdf tbase nsym s := by
  rw [execDecicdf, execDecicdf, if_pos hl, if_pos hl, whenReady_live hs, whenReady_live hs']
  obtain ⟨hn, hw⟩ := hl
  rcases runDecicdf_agree hn hw hcoder (fun _ _ => by rw [hsame.table]) with ⟨hr, hr'⟩ | hagree
  · rw [hr, hr']
  · exact hagree.eq hsame (completeDecode_eq _)

/-- Settles O39: `INIT` forgets `STATE`, the decode commands branch alike on the two, and `LUTRD` keeps it. -/
theorem constructedAndDecodingBehaveAlike : Obligations.ConstructedAndDecodingBehaveAlike := by
  unfold Obligations.ConstructedAndDecodingBehaveAlike
  intro i s hwf
  have hsame : SameButLifetime { s with state := .constructed } { s with state := .decoding } := rfl
  have hcoder : CoderEq { s with state := .constructed } { s with state := .decoding } := ⟨rfl, rfl, rfl, rfl, rfl⟩
  cases i with
  | init => exact congrArg (mapNext determined) (execInit_eq hsame)
  | declogp logp =>
    have hl := (wellFormed_declogp logp).mp hwf
    exact congrArg (mapNext determined) (execDeclogp_live_eq hl (.inl rfl) (.inr rfl) hsame hcoder)
  | decicdf tbase nsym =>
    have hl := (wellFormed_decicdf tbase nsym).mp hwf
    exact congrArg (mapNext determined) (execDecicdf_live_eq hl (.inl rfl) (.inr rfl) hsame hcoder)
  | lutrd idx => rfl

end Sys2Proof.Machine
end

section
/-! PROOFS. The symbol decodes (42_symbol_decode.md R121 to R137): tables and the search in them, the arithmetic of a decode, what
`DECLOGP` and `DECICDF` write when the stream holds the bytes they need, and the one way a run stops (R129). -/

namespace Sys2Proof.Machine

variable {s : State}

/-! ### Tables and the search in them -/

/-- Settles O29: `tableWellFormed_iff`, item by item of R121. -/
theorem tableCheckIsWellFormedness : Obligations.TableCheckIsWellFormedness := by
  unfold Obligations.TableCheckIsWellFormedness
  exact tableWellFormed_iff

/-- Where an upper bound is above the position, the search finds the first that is (42_symbol_decode.md R123). -/
theorem search_finds {e : Entries} {nsym fs : Nat} (h : ∃ j, j < nsym ∧ fs < e (j + 1)) :
    search e nsym fs < nsym ∧ fs < e (search e nsym fs + 1) ∧ ∀ j, j < search e nsym fs → e (j + 1) ≤ fs := by
  obtain ⟨j, hj, habove⟩ := h
  rcases search_cases e nsym fs with hfound | ⟨-, hnone⟩
  · exact hfound
  · exact absurd habove (Nat.not_lt.mpr (hnone j hj))

/-- Where no upper bound is above the position, the search falls back on the last symbol (42_symbol_decode.md R123). -/
theorem search_falls_back {e : Entries} {nsym fs : Nat} (h : ∀ j, j < nsym → e (j + 1) ≤ fs) :
    search e nsym fs = nsym - 1 := by
  rcases search_cases e nsym fs with ⟨hk, habove, -⟩ | ⟨hlast, -⟩
  · exact absurd habove (Nat.not_lt.mpr (h _ hk))
  · exact hlast

/-- Settles O28: the two cases of the search, and in a well-formed table the symbol that holds the position is above it. -/
theorem searchReturnsTheFirstAbove : Obligations.SearchReturnsTheFirstAbove := by
  unfold Obligations.SearchReturnsTheFirstAbove
  intro e nsym fs _
  refine ⟨search_finds, search_falls_back, fun ht hfs => ?_⟩
  obtain ⟨hk, -, habove⟩ := search_holds ht hfs
  exact ⟨search e nsym fs, hk, habove⟩

/-! ### The arithmetic of a decode -/

/-- The position is below the total (42_symbol_decode.md R122). -/
theorem icdfPosition_lt {ft : Nat} (hft : 1 ≤ ft) (s : State) : icdfPosition ft s < ft :=
  Nat.sub_lt hft (lt_min (Nat.succ_pos _) hft)

/-- The bounds of `VAL` and `RNG` after the update, `fl(k)` 0 or not (42_symbol_decode.md R128 (d), (e)). -/
theorem icdfRange_bounds {e : Entries} {nsym k : Nat} (ht : TableOk e nsym) (hr : RangeOk s)
    (hk : SymbolHolds e nsym (icdfPosition (e 0) s) k) :
    icdfValue e k s < icdfRange e k s ∧ s.rng.toNat / e 0 ≤ icdfRange e k s ∧ icdfRange e k s ≤ s.rng.toNat := by
  obtain ⟨h23, -, hv⟩ := hr
  have ⟨_, hlow, hhigh⟩ := hk
  obtain ⟨-, -, -, hcut, htop⟩ := icdf_arith h23 hv ht.ft_pos ht.ft_max hlow hhigh (hk.bounds ht).2
  unfold icdfValue icdfRange
  split
  · next hpos => exact hcut hpos
  · next hzero =>
    obtain ⟨hval, hmin⟩ := htop (Nat.eq_zero_of_not_pos hzero)
    exact ⟨hval, hmin, Nat.sub_le _ _⟩

/-- Settles O30: the symbol is the one the search finds, and `icdf_arith` bounds its update. -/
theorem wellFormedTableDecodesInRange : Obligations.WellFormedTableDecodesInRange := by
  unfold Obligations.WellFormedTableDecodesInRange
  intro e nsym s ht hr
  have hk := search_holds ht (icdfPosition_lt ht.ft_pos s)
  obtain ⟨hvalue, hmin, hmax⟩ := icdfRange_bounds ht hr hk
  obtain ⟨hfreq, hhm⟩ := hk.bounds ht
  obtain ⟨h23, -, hv⟩ := hr
  have ⟨_, hlow, hhigh⟩ := hk
  obtain ⟨h128, hbelow, hdiv, -, -⟩ := icdf_arith h23 hv ht.ft_pos ht.ft_max hlow hhigh hhm
  exact ⟨_, hk, rfl, hfreq, h128, hbelow, hvalue, hmin, hmax, hdiv, hhm, fun _ => hbelow.trans hv.le⟩

/-! ### How a decode of an active lifetime ends -/

theorem exec_declogp_live {logp : BitVec 5} (hl : logpLegal logp) (hs : Live s) :
    exec (.declogp logp) s = runDeclogp logp s := by
  rw [show exec (.declogp logp) s = execDeclogp logp s from rfl, execDeclogp, if_pos hl, whenReady_live hs]

theorem exec_decicdf_live {tbase : Addr} {nsym : BitVec 8} (hn : nsymLegal nsym) (hw : windowLegal tbase nsym)
    (hs : Live s) : exec (.decicdf tbase nsym) s = runDecicdf tbase nsym s := by
  rw [show exec (.decicdf tbase nsym) s = execDecicdf tbase nsym s from rfl, execDecicdf, if_pos ⟨hn, hw⟩,
    whenReady_live hs]

theorem runDecicdf_of_tableOk {tbase : Addr} {nsym : BitVec 8} (ht : TableOk (entries s.table tbase) nsym.toNat) :
    runDecicdf tbase nsym s =
      finish (completeDecode (BitVec.ofNat 32 (icdfSymbol (entries s.table tbase) nsym.toNat s)))
        (normalize (icdfUpdate (entries s.table tbase) (icdfSymbol (entries s.table tbase) nsym.toNat s) s)) :=
  if_pos ((tableWellFormed_iff _ _).mpr ht)

/-- With the bytes its renormalization needs, a command that ends in one completes (43_normalize_bits.md R148, R150). -/
theorem finish_normalizedBy (complete : State → State) (h : Renormalizable s)
    (hlen : normSteps s.rng.toNat ≤ s.stream.length) :
    finish complete (normalize s) = .next (complete (normalizedBy (normSteps s.rng.toNat) s)) := by
  obtain ⟨h1, h31, hv, hc⟩ := h
  rcases normalize_closed s h1 h31 hv hc with ⟨-, he, -, -⟩ | ⟨hshort, -⟩
  · rw [he, finish]
  · exact absurd hlen (Nat.not_le.mpr hshort)

/-- Above the threshold a command that ends in a renormalization completes with the coder as it is, whatever the cursor holds
(43_normalize_bits.md R144). -/
theorem finish_above (complete : State → State) (h : 2 ^ 23 < s.rng.toNat) :
    finish complete (normalize s) = .next (complete s) := by
  rw [normalize_above s h, finish]

/-- Loading what the coder holds changes nothing. -/
theorem loadCoder_self (s : State) : loadCoder s.rng.toNat s.val.toNat s = s := by
  simp only [loadCoder, BitVec.ofNat_toNat, BitVec.setWidth_eq]

/-! ### `DECLOGP` -/

/-- The update as R133 words it: where `VAL < scale`, `VAL` is left alone. -/
theorem logpUpdate_eq (scale : Nat) (s : State) :
    logpUpdate scale s =
      if scale ≤ s.val.toNat then
        { s with rng := BitVec.ofNat 32 (s.rng.toNat - scale), val := BitVec.ofNat 32 (s.val.toNat - scale) }
      else { s with rng := BitVec.ofNat 32 scale } := by
  simp only [logpUpdate, loadCoder, BitVec.ofNat_toNat, BitVec.setWidth_eq]

/-- The bit as R134 words it. -/
theorem ofNat_logpBit (val scale : Nat) : BitVec.ofNat 32 (logpBit val scale) = if val < scale then 1 else 0 := by
  unfold logpBit
  split
  · next hle => exact (if_neg (Nat.not_lt.mpr hle)).symm
  · next hgt => exact (if_pos (Nat.not_le.mp hgt)).symm

theorem exec_declogp_completes {logp : BitVec 5} (hl : logpLegal logp) (hs : Live s) (hr : RangeOk s) (hc : CursorOk s)
    (hlen : normSteps (logpUpdate (logpScale s.rng.toNat logp) s).rng.toNat ≤ s.stream.length) :
    exec (.declogp logp) s = .next
      (completeDecode (BitVec.ofNat 32 (logpBit s.val.toNat (logpScale s.rng.toNat logp)))
        (normalizedBy (normSteps (logpUpdate (logpScale s.rng.toNat logp) s).rng.toNat)
          (logpUpdate (logpScale s.rng.toNat logp) s))) := by
  obtain ⟨-, hstream, -⟩ := logpUpdate_took (logpScale s.rng.toNat logp) s
  rw [exec_declogp_live hl hs]
  exact finish_normalizedBy _ (logpUpdate_renormalizable hl hr hc) (by rwa [hstream])

/-- Settles O25: the update leaves a coder that renormalizes, and its bytes are there. -/
theorem declogpDecodesABit : Obligations.DeclogpDecodesABit := by
  unfold Obligations.DeclogpDecodesABit
  intro logp s hl hs hr hc scale u hlen
  have hu : logpUpdate (logpScale s.rng.toNat logp) s = u := logpUpdate_eq scale s
  rw [exec_declogp_completes hl hs hr hc (by rwa [hu]), hu, ofNat_logpBit]
  rfl

/-- Settles O27: the scale is `RNG` itself, above `VAL`, so the update loads what the coder holds. -/
theorem declogpZeroAlwaysOne : Obligations.DeclogpZeroAlwaysOne := by
  unfold Obligations.DeclogpZeroAlwaysOne
  intro s hs hr
  obtain ⟨h23, -, hv⟩ := hr
  have hscale : logpScale s.rng.toNat 0 = s.rng.toNat := Nat.div_one _
  have hbelow : ¬ s.rng.toNat ≤ s.val.toNat := Nat.not_le.mpr hv
  rw [exec_declogp_live (Nat.zero_le _) hs, runDeclogp, hscale, logpUpdate, logpBit, if_neg hbelow, if_neg hbelow,
    loadCoder_self, finish_above _ h23]
  rfl

/-! ### `DECICDF` -/

/-- The update as R125 and R126 word it, where the scale is the spec's quotient. -/
theorem icdfUpdate_eq {e : Entries} (k : Nat) (hscale : icdfScale e s = s.rng.toNat / e 0) :
    icdfUpdate e k s = loadCoder (icdfRange e k s) (icdfValue e k s) s := by
  simp only [icdfUpdate, icdfRange, icdfValue, hscale]
  split <;> rfl

/-- Settles O31: the symbol is the one the search finds, its update leaves a coder that renormalizes, and its bytes are
there. -/
theorem decicdfDecodesASymbol : Obligations.DecicdfDecodesASymbol := by
  unfold Obligations.DecicdfDecodesASymbol
  intro tbase nsym s hn hw hs hr hc ht e
  obtain ⟨hscale, hk⟩ := icdfSymbol_holds ht hr
  obtain ⟨-, -, hmax⟩ := icdfRange_bounds ht hr hk
  have hren := icdfUpdate_renormalizable ht hr hc
  have hexec := (exec_decicdf_live hn hw hs).trans (runDecicdf_of_tableOk ht)
  rw [icdfUpdate_eq _ hscale] at hren hexec
  refine ⟨_, hk, fun hlen => ?_⟩
  generalize icdfSymbol (entries s.table tbase) nsym.toNat s = k at *
  have hrng : (loadCoder (icdfRange e k s) (icdfValue e k s) s).rng.toNat = icdfRange e k s :=
    toNat_ofNat_of_lt (hmax.trans_lt s.rng.isLt)
  rw [hexec, finish_normalizedBy _ hren (by rwa [hrng]), hrng]
  rfl

/-- Settles O33: the cases of `DECICDF` with legal operands in an active lifetime, by its table. -/
theorem decicdfRefusesExactlyMalformedTables : Obligations.DecicdfRefusesExactlyMalformedTables := by
  unfold Obligations.DecicdfRefusesExactlyMalformedTables
  intro tbase nsym s hn hw hs
  rcases execDecicdf_cases tbase nsym s with
    ⟨hl, -⟩ | ⟨-, ⟨h, -⟩ | ⟨h, -⟩ | ⟨-, hbad, he⟩ | ⟨-, ht, ⟨n, u, w, he, -⟩ | he⟩⟩
  · exact absurd ⟨hn, hw⟩ hl
  · exact absurd h hs.ne_uninit
  · exact absurd h hs.ne_exhausted
  · exact ⟨fun _ => he, fun ht => absurd ht hbad⟩
  · exact ⟨fun hbad => absurd ht hbad, fun _ => ⟨_, he⟩⟩
  · exact ⟨fun hbad => absurd ht hbad, fun _ => ⟨_, he⟩⟩

/-- A table of one symbol, `[ft, ft]`, is well-formed (42_symbol_decode.md R130). -/
theorem tableOk_one {e : Entries} (h1 : 1 ≤ e 0) (hmax : e 0 ≤ 65536) (hlast : e 1 = e 0) : TableOk e 1 :=
  ⟨h1, hmax, fun _ hj hj1 => absurd hj (Nat.not_le.mpr hj1), hlast, le_rfl⟩

/-- The update for the symbol of a one-symbol table loads what the coder holds (42_symbol_decode.md R130). -/
theorem icdfUpdate_one {e : Entries} (hlast : e 1 = e 0) (s : State) : icdfUpdate e 0 s = s := by
  have hhigh : highBound e 0 = e 0 := hlast
  have hlow : ¬ 0 < lowBound e 0 := Nat.lt_irrefl 0
  simp only [icdfUpdate, if_neg hlow, hhigh, Nat.sub_self, Nat.mul_zero, Nat.sub_zero, loadCoder_self]

/-- Settles O35: the only symbol is 0, its update loads what the coder holds, and `RNG` is above the threshold already. -/
theorem oneSymbolTableChangesNothing : Obligations.OneSymbolTableChangesNothing := by
  unfold Obligations.OneSymbolTableChangesNothing
  intro tbase s hw hs hr h1 hmax hlast
  have hbase : entries s.table tbase 0 = (tblRead s.table tbase).toNat := by
    rw [entries, BitVec.add_zero]
  have hone : entries s.table tbase 1 = entries s.table tbase 0 := by
    rw [hbase, ← hlast]
    rfl
  have ht : TableOk (entries s.table tbase) (1 : BitVec 8).toNat :=
    tableOk_one (by rwa [hbase]) (by rwa [hbase]) hone
  obtain ⟨-, hk, -⟩ := icdfSymbol_holds ht hr
  have hzero : icdfSymbol (entries s.table tbase) (1 : BitVec 8).toNat s = 0 := Nat.lt_one_iff.mp hk
  rw [exec_decicdf_live le_rfl hw hs, runDecicdf_of_tableOk ht, hzero, icdfUpdate_one hone, finish_above _ hr.1]
  rfl

/-! ### What stops a run (42_symbol_decode.md R129) -/

/-- Settles O46: every host step but the two that present a word answers, and a word stops on a malformed table alone, with a
reset inside it or not. -/
theorem onlyMalformedTablesStopARun : Obligations.OnlyMalformedTablesStopARun := by
  unfold Obligations.OnlyMalformedTablesStopARun
  intro s hi
  cases hq : s.host with
  | nil => exact .inl ⟨s, step_idle_nil hi hq⟩
  | cons h q =>
    rw [step_idle_cons hi hq]
    cases h with
    | command w =>
      rcases executeWord_answers w { s with host := q } with hn | ⟨he, tbase, nsym, hd, hs, ht⟩
      · exact .inl hn
      · exact .inr ⟨he, w, q, tbase, nsym, .inl rfl, hd, hs, ht⟩
    | setStream bytes => exact .inl ⟨_, rfl⟩
    | writeTable a v => exact .inl ⟨_, rfl⟩
    | readReg a => exact .inl ⟨_, rfl⟩
    | reset => exact .inl ⟨_, rfl⟩
    | resetDuring w n =>
      rcases executeWord_answers w { s with host := q } with ⟨t, he⟩ | ⟨he, tbase, nsym, hd, hs, ht⟩
      · exact .inl ⟨_, resetDuring_next n he⟩
      · exact .inr ⟨resetDuring_refused n he, w, q, tbase, nsym, .inr ⟨n, rfl⟩, hd, hs, ht⟩

end Sys2Proof.Machine
end

section
/-! PROOFS. Raw bits and renormalization (43_normalize_bits.md R141 to R150): a chunk through the cursor, the loop pass by pass,
the loop in closed form, and the range of 0 from which it only ends at end-of-data. -/

namespace Sys2Proof.Machine

variable {s t : State}

/-! ### One chunk -/

/-- Settles O18: `readBits_chunk`, which leaves `CCNT` at the 7 it held. -/
theorem chunkStraddlesTwoBytes : Obligations.ChunkStraddlesTwoBytes := by
  unfold Obligations.ChunkStraddlesTwoBytes
  intro s b rest hc hs
  have hccnt : (7 : Fin 9) = s.ccnt := hc.symm
  rw [readBits_chunk s b rest hc hs, hccnt]
  rfl

/-! ### The loop -/

/-- Settles O19: one unfolding of the loop, with the step at or below the threshold written out. -/
theorem normalizeIsTheLoop : Obligations.NormalizeIsTheLoop := by
  unfold Obligations.NormalizeIsTheLoop
  intro s
  by_cases h : s.rng.toNat ≤ 2 ^ 23
  · rw [normalize_eq, if_pos h, if_pos h, normalizeStep_eq s h]
    cases readBits 8 { s with rng := BitVec.ofNat 32 (s.rng.toNat * 256) } <;> rfl
  · rw [normalize_eq, if_neg h, if_neg h]

/-- What exhaustion leaves tells where the byte source stood: at the end of the stream (60_exceptions.md R163). -/
theorem source_of_raiseExhausted_drained (h : raiseExhausted t = raiseExhausted (drained s)) :
    t.stream = [] ∧ t.fetched = s.fetched + s.stream.length :=
  ⟨congrArg State.stream h, congrArg State.fetched h⟩

/-- Settles O20: `normalize_closed`, whose two cases differ in whether the bytes are there. -/
theorem normalizeInClosedForm : Obligations.NormalizeInClosedForm := by
  unfold Obligations.NormalizeInClosedForm
  intro s h1 h31 hv hc
  rcases normalize_closed s h1 h31 hv hc with ⟨hlen, hok, hrange, hcur⟩ | ⟨hshort, t, he, ht⟩
  · exact ⟨fun _ => ⟨hok, hrange, hcur⟩, fun hlt => absurd hlen (Nat.not_le.mpr hlt)⟩
  · exact ⟨fun hle => absurd hle (Nat.not_le.mpr hshort), fun _ => ⟨t, he, source_of_raiseExhausted_drained ht⟩⟩

/-! ### A range of 0 -/

/-- A step multiplies `RNG` by 256 (43_normalize_bits.md R148). -/
theorem normalizeStep_rng (h : s.rng.toNat ≤ 2 ^ 23) (hs : normalizeStep s = .ok () t) :
    t.rng = BitVec.ofNat 32 (s.rng.toNat * 256) := by
  rw [normalizeStep_eq s h, readBits] at hs
  have hk := readBitsInto_keeps 8 0 { s with rng := BitVec.ofNat 32 (s.rng.toNat * 256) }
  cases hr : readBitsInto 8 0 { s with rng := BitVec.ofNat 32 (s.rng.toNat * 256) } with
  | exhausted u =>
    rw [hr] at hs
    cases hs
  | ok c u =>
    rw [hr] at hs hk
    cases hs
    exact hk.1

/-- From a range of 0 the loop never completes: each step leaves the range 0 and one pass less (43_normalize_bits.md R147). -/
theorem normalize_zero_ne_ok (h0 : s.rng = 0) : normalize s ≠ .ok () t := by
  generalize hp : passesLeft s = p
  induction p using Nat.strong_induction_on generalizing s with
  | _ p ih =>
    have hle : s.rng.toNat ≤ 2 ^ 23 := by rw [h0]; exact Nat.zero_le _
    rw [normalize_eq, if_pos hle]
    cases hs : normalizeStep s with
    | exhausted u => nofun
    | ok _ u =>
      have hpass := normalizeStep_passes hle hs
      have hrng : u.rng = 0 := by rw [normalizeStep_rng hle hs, h0]; rfl
      exact ih _ (by omega) hrng rfl

/-- Settles O21: `Normalize` completes or drains the stream, and from a range of 0 it does not complete. -/
theorem normalizeFromZeroDrainsTheStream : Obligations.NormalizeFromZeroDrainsTheStream := by
  unfold Obligations.NormalizeFromZeroDrainsTheStream
  intro s h0
  rcases normalize_cases s with ⟨n, t, he, -⟩ | ⟨t, he, ht⟩
  · exact absurd he (normalize_zero_ne_ok h0)
  · exact ⟨t, he, source_of_raiseExhausted_drained ht⟩

end Sys2Proof.Machine
end

section
/-! PROOFS. The failures of a command (60_exceptions.md R162 to R165, R171), an idle block (R185), and the cores of a platform
(R180). -/

namespace Sys2Proof.Machine

variable {s t u : State}

/-! ### An illegal word, and an idle block -/

/-- Settles O6: the word is executed at the state without that host step, and `executeWord_illegal` says how. -/
theorem illegalWordChangesErrAlone : Obligations.IllegalWordChangesErrAlone := by
  unfold Obligations.IllegalWordChangesErrAlone
  intro s w q hi hq hw
  calc step s = executeWord w { s with host := q } := step_idle_cons hi hq
    _ = .next (raiseIllegal { s with host := q }) := executeWord_illegal hw _

/-- Settles O8: `step_idle_nil`, the equation of a step with no host step to take. -/
theorem idleBlockHoldsItsState : Obligations.IdleBlockHoldsItsState := by
  unfold Obligations.IdleBlockHoldsItsState
  exact fun _ => step_idle_nil

/-! ### A decode command outside an active lifetime -/

/-- A legal `DECLOGP` goes on to the check of `STATE` (60_exceptions.md R166). -/
theorem exec_declogp_legal {logp : BitVec 5} (hl : logpLegal logp) (s : State) :
    exec (.declogp logp) s = whenReady s (runDeclogp logp) := if_pos hl

/-- A legal `DECICDF` goes on to the check of `STATE` (60_exceptions.md R166). -/
theorem exec_decicdf_legal {tbase : Addr} {nsym : BitVec 8} (hn : nsymLegal nsym) (hw : windowLegal tbase nsym)
    (s : State) : exec (.decicdf tbase nsym) s = whenReady s (runDecicdf tbase nsym) := if_pos ⟨hn, hw⟩

theorem whenReady_uninit (hs : s.state = .uninit) (run : State → Host.Outcome State Fault Refusal) :
    whenReady s run = .next (raiseNotReady s) := by
  rw [whenReady, hs]

theorem whenReady_exhausted (hs : s.state = .exhausted) (run : State → Host.Outcome State Fault Refusal) :
    whenReady s run = .next (reportExhausted s) := by
  rw [whenReady, hs]

/-- Settles O36: a legal decode command comes to the check of `STATE`, which answers in `UNINIT` without running it. -/
theorem decodeBeforeInitIsNotReady : Obligations.DecodeBeforeInitIsNotReady := by
  unfold Obligations.DecodeBeforeInitIsNotReady
  intro s hs
  constructor
  · intro logp hl
    exact (exec_declogp_legal hl s).trans (whenReady_uninit hs _)
  · intro tbase nsym hn hw
    exact (exec_decicdf_legal hn hw s).trans (whenReady_uninit hs _)

/-- Settles O37: a legal decode command comes to the check of `STATE`, which answers in `EXHAUSTED` without running it. -/
theorem decodeAfterExhaustionReportsIt : Obligations.DecodeAfterExhaustionReportsIt := by
  unfold Obligations.DecodeAfterExhaustionReportsIt
  intro s hs
  constructor
  · intro logp hl
    exact (exec_declogp_legal hl s).trans (whenReady_exhausted hs _)
  · intro tbase nsym hn hw
    exact (exec_decicdf_legal hn hw s).trans (whenReady_exhausted hs _)

/-! ### Running out of input -/

/-- `raise Exhausted` at end-of-data leaves what R163 says, whatever values it draws (60_exceptions.md R163). -/
theorem exhaustedFrom_raiseExhausted_drained (s : State) : ExhaustedFrom s (raiseExhausted (drained s)) := rfl

/-- A command whose update has taken no byte, and whose renormalization needs more bytes than there are, drains the stream and
fails (43_normalize_bits.md R149). -/
theorem finish_runs_out (complete : State → State) (hu : Took 0 s u) (h : Renormalizable u)
    (hlen : s.stream.length < normSteps u.rng.toNat) :
    finish complete (normalize u) = .next (raiseExhausted (drained s)) := by
  obtain ⟨h1, h31, hv, hc⟩ := h
  have ⟨_, hstream, _⟩ := hu
  rcases normalize_closed u h1 h31 hv hc with ⟨henough, -⟩ | ⟨-, t, he, ht⟩
  · rw [hstream] at henough
    exact absurd hlen (Nat.not_lt.mpr henough)
  · rw [he, finish, ht, hu.drained]

/-- `RNG` after the update of `DECLOGP`, as R133 words it: neither value is cut to 32 bits. -/
theorem logpUpdate_rng_toNat {scale : Nat} (hle : scale ≤ s.rng.toNat) :
    (logpUpdate scale s).rng.toNat = if scale ≤ s.val.toNat then s.rng.toNat - scale else scale := by
  have hlt := s.rng.isLt
  unfold logpUpdate
  split
  · exact toNat_ofNat_of_lt (by omega)
  · exact toNat_ofNat_of_lt (by omega)

/-- Settles O26: the update leaves a coder that renormalizes, and its bytes are not there. -/
theorem declogpRunsOut : Obligations.DeclogpRunsOut := by
  unfold Obligations.DeclogpRunsOut
  intro logp s hl hs hr hc scale hlen
  have hrng := logpUpdate_rng_toNat (s := s) (scale := scale) (Nat.div_le_self _ _)
  rw [← hrng] at hlen
  refine ⟨raiseExhausted (drained s), ?_, exhaustedFrom_raiseExhausted_drained s⟩
  rw [exec_declogp_live hl hs]
  exact finish_runs_out _ (logpUpdate_took _ s) (logpUpdate_renormalizable hl hr hc) hlen

/-- `RNG` after the update of `DECICDF`, as R126 words it: it is not cut to 32 bits. -/
theorem icdfUpdate_rng_toNat {e : Entries} {nsym : Nat} (ht : TableOk e nsym) (hr : RangeOk s) :
    (icdfUpdate e (icdfSymbol e nsym s) s).rng.toNat = icdfRange e (icdfSymbol e nsym s) s := by
  obtain ⟨hscale, hk⟩ := icdfSymbol_holds ht hr
  obtain ⟨-, -, hmax⟩ := icdfRange_bounds ht hr hk
  rw [icdfUpdate_eq _ hscale]
  exact toNat_ofNat_of_lt (hmax.trans_lt s.rng.isLt)

/-- Settles O32: the symbol that holds the position is the decoded one, its update leaves a coder that renormalizes, and its
bytes are not there. -/
theorem decicdfRunsOut : Obligations.DecicdfRunsOut := by
  unfold Obligations.DecicdfRunsOut
  intro tbase nsym s k hn hw hs hr hc ht e hk hlen
  obtain ⟨-, hsymbol⟩ := icdfSymbol_holds ht hr
  obtain rfl : k = icdfSymbol e nsym.toNat s := hk.unique ht hsymbol
  refine ⟨raiseExhausted (drained s), ?_, exhaustedFrom_raiseExhausted_drained s⟩
  rw [exec_decicdf_live hn hw hs, runDecicdf_of_tableOk ht]
  exact finish_runs_out _ (icdfUpdate_took _ _ s) (icdfUpdate_renormalizable ht hr hc)
    (by rwa [icdfUpdate_rng_toNat ht hr])

/-! ### Precise failures -/

/-- `ERR` and the `STATE` before it say that a failure changed nothing else (60_exceptions.md R171). -/
def PreciseFailure (s t : State) : Prop :=
  t.err = .illegal ∨ t.err = .notReady ∨ (t.err = .exhausted ∧ s.state = .exhausted)

theorem not_preciseFailure_of_ok (h : t.err = .ok) : ¬ PreciseFailure s t := by
  simp [PreciseFailure, h]

/-- A decode command that drains the stream was in an active lifetime, so its failure is not a precise one. -/
theorem DecodeEnds.err_alone {legal : Prop} (h : DecodeEnds legal s t) (hp : PreciseFailure s t) :
    t = { s with err := t.err } := by
  cases h with
  | illegal => rfl
  | notReady => rfl
  | stillExhausted => rfl
  | decode w u => exact absurd hp (not_preciseFailure_of_ok rfl)
  | drained _ hs =>
    rcases hp with herr | herr | ⟨-, hexhausted⟩
    · cases herr
    · cases herr
    · exact absurd hexhausted hs.ne_exhausted

/-- `INIT` reports nothing but `OK` and `EXHAUSTED` (41_lifecycle_init.md R116). -/
theorem execInit_err (h : execInit s = .next t) : t.err = .ok ∨ t.err = .exhausted := by
  rcases execInit_cases s with ⟨n, u, he, -⟩ | he
  · cases he.symm.trans h
    exact .inl rfl
  · cases he.symm.trans h
    exact .inr rfl

/-- Settles O41: `INIT` and `LUTRD` have no such failure, and a decode command by the way it ends. -/
theorem preciseFailuresChangeErrAlone : Obligations.PreciseFailuresChangeErrAlone := by
  unfold Obligations.PreciseFailuresChangeErrAlone
  intro i s t h herr
  have hp : PreciseFailure s t := herr.imp_right (Or.imp_right fun ⟨he, hs, _⟩ => ⟨he, hs⟩)
  cases i with
  | init =>
    rcases execInit_err h with hok | hexhausted
    · exact absurd hp (not_preciseFailure_of_ok hok)
    · simp [hexhausted] at herr
  | declogp logp => exact (execDeclogp_ends h).err_alone hp
  | decicdf tbase nsym => exact (execDecicdf_ends h).err_alone hp
  | lutrd idx =>
    cases h
    exact absurd hp (not_preciseFailure_of_ok rfl)

/-! ### The cores of a platform -/

/-- A step of core `k` that answers is the step of that core's state, put in its place. -/
theorem Platform.stepCore_next {p p' : Platform} {k : Nat} (hk : p.cores[k]? = some s)
    (h : Platform.stepCore k p = .next p') : ∃ t, step s = .next t ∧ p' = { cores := p.cores.set k t } := by
  cases hstep : step s with
  | next t =>
    simp only [Platform.stepCore, hk, hstep] at h
    cases h
    exact ⟨t, rfl, rfl⟩
  | fault r => simp [Platform.stepCore, hk, hstep] at h
  | refused r => simp [Platform.stepCore, hk, hstep] at h

theorem Platform.resetAll_getElem? (p : Platform) (k : Nat) :
    (Platform.resetAll p).cores[k]? = p.cores[k]?.map applyReset := List.getElem?_map

theorem Platform.eq_reset_of_mem {n : Nat} (h : s ∈ (Platform.reset n).cores) : s = State.reset := List.eq_of_mem_replicate h

/-- Settles O52: a step puts one core's next state in its place in the list, and reset maps over the list. -/
theorem coresAreIsolated : Obligations.CoresAreIsolated := by
  unfold Obligations.CoresAreIsolated
  refine ⟨fun p p' k s hk _ h => ?_, Platform.resetAll_getElem?, fun n hn => ?_⟩
  · obtain ⟨t, hstep, rfl⟩ := Platform.stepCore_next hk h
    have hlt : k < p.cores.length := (List.getElem?_eq_some_iff.mp hk).1
    exact ⟨List.length_set, fun j hj => List.getElem?_set_ne hj.symm, t, hstep, List.getElem?_set_self hlt⟩
  · have hlen : (Platform.reset n).cores.length = n := List.length_replicate
    refine ⟨decide_eq_true (hn.trans_eq hlen.symm), hlen, fun s hs => ?_⟩
    rw [Platform.eq_reset_of_mem hs]
    exact ⟨rfl, rfl⟩

end Sys2Proof.Machine
end

section
/-! PROOFS. Reset inside a command (70_reset_and_hazards.md R190, R191), what an observation shows, where a run ends, and what a
run depends on (R204). -/

namespace Sys2Proof.Machine

variable {s s' t t' : State}

/-! ### Reset inside a command -/

/-- Settles O53: the bytes the command would take are counted alike by the stream it leaves and by the count it leaves. -/
theorem resetDuringACommandKeepsItsBytesConsumed : Obligations.ResetDuringACommandKeepsItsBytesConsumed := by
  unfold Obligations.ResetDuringACommandKeepsItsBytesConsumed
  intro s t w n q hi hq he
  obtain ⟨k, hk, hstream, hfetched⟩ := (executeWord_coreStep he).source
  have htaken : t.fetched - s.fetched = s.stream.length - t.stream.length := by
    rw [hstream, hfetched, List.length_drop]
    dsimp only at hk ⊢
    omega
  refine ⟨min n (s.stream.length - t.stream.length), rfl, ?_⟩
  rw [step_idle_cons hi hq, idleStep, resetDuring_next n he, htaken, show s.inFlight = none from hi]
  rfl

/-! ### What an observation shows -/

/-- In `EXHAUSTED` an observation leaves the coder out (60_exceptions.md R163). -/
theorem observe_exhausted (hs : s.state = .exhausted) :
    observe s = { status := statusWord s, result := s.result, rng := none, val := none, cur := none } := by
  simp only [observe, determinedRead, hs]
  rfl

theorem observe_determined (hs : s.state ≠ .exhausted) :
    observe s =
      { status := statusWord s, result := s.result, rng := some s.rng, val := some s.val, cur := some (curWord s) } := by
  have hread (a : BitVec 3) : determinedRead a s = some (readIdle a s) := by
    unfold determinedRead
    split
    · contradiction
    · rfl
    · rfl
    · rfl
  simp only [observe, hread]
  rfl

/-- Settles O54: `STATUS` and `RESULT` are shown in either case, and the coder as `STATE` says. -/
theorem observationShowsWhatIsDetermined : Obligations.ObservationShowsWhatIsDetermined := by
  unfold Obligations.ObservationShowsWhatIsDetermined
  intro s
  refine ⟨rfl, rfl, fun hs => ?_, fun hs => ?_⟩
  · rw [observe_determined hs]
    exact ⟨rfl, rfl, rfl⟩
  · rw [observe_exhausted hs]
    exact ⟨rfl, rfl, rfl⟩

/-! ### Where a run ends -/

/-- The outcome of a run whose host has the steps `steps` to take: an end after the last command, with one observation for each
that completes, or a stop on a malformed table. -/
def EndsAfter (steps : List HostStep) (o : Host.Outcome RunEnd Fault Refusal) : Prop :=
  (∃ e, o = .next e ∧ Idle e.last ∧ (∀ h ∈ e.last.host, h.issues = false) ∧
    e.seen.ports.length = (steps.filter HostStep.completes).length ∧ e.seen.taken = e.last.fetched) ∨
  o = .refused .malformedTable

/-- Where no host step issues a command, none completes one. -/
theorem filter_completes_of_no_issues {steps : List HostStep} (h : ∀ x ∈ steps, x.issues = false) :
    steps.filter HostStep.completes = [] := by
  rw [List.filter_eq_nil_iff]
  intro x hx hc
  exact absurd (HostStep.issues_of_completes hc) (Bool.eq_false_iff.mp (h x hx))

theorem endsAfter_of_runEnded (fuel : Nat) (hs : runEnded s = true) : EndsAfter s.host (runSteps fuel s) := by
  obtain ⟨hi, hissues⟩ := runEnded_iff.mp hs
  refine .inl ⟨_, runSteps_ended fuel hs, hi, hissues, ?_, rfl⟩
  rw [filter_completes_of_no_issues hissues]
  rfl

/-- A step before the rest of a run adds its observation if it completes a command. -/
theorem EndsAfter.cons {fuel : Nat} {h : HostStep} {q : List HostStep} (hs : runEnded s = false) (hi : Idle s)
    (hq : s.host = h :: q) (ht : step s = .next t) (hrest : EndsAfter q (runSteps fuel t)) :
    EndsAfter (h :: q) (runSteps (fuel + 1) s) := by
  rcases hrest with ⟨e, he, hlast, hissues, hports, htaken⟩ | hr
  · refine .inl ⟨_, runSteps_next hs ht he, ?_⟩
    rw [completesNext_idle hi hq]
    cases hc : h.completes with
    | true => exact ⟨hlast, hissues, by simp [hports, hc], htaken⟩
    | false => exact ⟨hlast, hissues, by simp [hports, hc], htaken⟩
  · exact .inr (runSteps_refused_later hs ht hr)

/-- Each step takes one of the host's, so fuel for all of them is enough. -/
theorem runSteps_endsAfter {fuel : Nat} {steps : List HostStep} (hi : Idle s) (hq : s.host = steps)
    (hfuel : steps.length ≤ fuel) : EndsAfter steps (runSteps fuel s) := by
  induction steps generalizing s fuel with
  | nil =>
    have hs : runEnded s = true := runEnded_iff.mpr ⟨hi, by simp [hq]⟩
    exact hq ▸ endsAfter_of_runEnded fuel hs
  | cons h q ih =>
    obtain ⟨fuel, rfl⟩ := Nat.exists_eq_add_of_le' (Nat.le_of_add_left_le hfuel)
    cases hs : runEnded s with
    | true => exact hq ▸ endsAfter_of_runEnded _ hs
    | false =>
      rcases onlyMalformedTablesStopARun s hi with ⟨t, ht⟩ | ⟨hr, -⟩
      · obtain ⟨hhost, hidle⟩ := idleStep_host ((step_idle_cons hi hq).symm.trans ht) hi
        exact .cons hs hi hq ht (ih hidle hhost (Nat.le_of_succ_le_succ hfuel))
      · exact .inr (runSteps_refused hs hr)

/-- Settles O55: a run has fuel for every step of its host. -/
theorem runEndsAfterItsLastCommand : Obligations.RunEndsAfterItsLastCommand := by
  unfold Obligations.RunEndsAfterItsLastCommand
  exact fun s hi => runSteps_endsAfter hi rfl (Nat.le_succ s.host.length)

/-! ### What a run depends on -/

namespace SameButFreeValues

theorem fetched (h : SameButFreeValues s s') : s'.fetched = s.fetched := by rw [h.1]
theorem host (h : SameButFreeValues s s') : s'.host = s.host := by rw [h.1]
theorem inFlight (h : SameButFreeValues s s') : s'.inFlight = s.inFlight := by rw [h.1]
theorem result (h : SameButFreeValues s s') : s'.result = s.result := by rw [h.1]
theorem state (h : SameButFreeValues s s') : s'.state = s.state := by rw [h.1]
theorem stream (h : SameButFreeValues s s') : s'.stream = s.stream := by rw [h.1]
theorem table (h : SameButFreeValues s s') : s'.table = s.table := by rw [h.1]

theorem statusWord_eq (h : SameButFreeValues s s') : statusWord s' = statusWord s := by
  rw [h.1]
  rfl

/-- Outside `EXHAUSTED` the coders are the same. -/
theorem sameInputs (h : SameButFreeValues s s') (hs : s.state ≠ .exhausted) : SameInputs s s' := by
  obtain ⟨hrng, hval, hcbyte, hccnt⟩ := h.2 hs
  exact ⟨⟨hrng, hval, hcbyte, hccnt, h.stream⟩, h.state, h.result⟩

theorem symm (h : SameButFreeValues s s') : SameButFreeValues s' s := by
  refine ⟨by rw [h.1], fun hs => ?_⟩
  obtain ⟨hrng, hval, hcbyte, hccnt⟩ := h.2 (h.state ▸ hs)
  exact ⟨hrng.symm, hval.symm, hcbyte.symm, hccnt.symm⟩

theorem observe_eq (h : SameButFreeValues s s') : observe s' = observe s := by
  by_cases hs : s.state = .exhausted
  · rw [observe_exhausted hs, observe_exhausted (h.state.trans hs), h.statusWord_eq, h.result]
  · obtain ⟨hrng, hval, hcbyte, hccnt⟩ := h.2 hs
    have hcur : curWord s' = curWord s := by rw [curWord, curWord, hcbyte, hccnt]
    rw [observe_determined hs, observe_determined (h.state ▸ hs), h.statusWord_eq, h.result, hrng, hval, hcur]

theorem runEnded_eq (h : SameButFreeValues s s') : runEnded s' = runEnded s := by
  rw [Bool.eq_iff_iff, runEnded_iff, runEnded_iff, h.inFlight, h.host]

theorem completesNext_eq (h : SameButFreeValues s s') : completesNext s' = completesNext s := by
  rw [completesNext, completesNext, h.inFlight, h.host]

/-- An update of `ERR` alone gives the same results. -/
theorem sameResults_err (e : ErrCode) (h : SameButFreeValues s s') : SameResults { s with err := e } { s' with err := e } :=
  ⟨h.result, rfl, h.state, h.stream, h.2⟩

end SameButFreeValues

/-- In `EXHAUSTED` no command reads the coder: `INIT` loads it and a decode command is not run (41_lifecycle_init.md R112,
60_exceptions.md R165). -/
theorem exec_sameOutcome_of_exhausted (i : Instr) (h : SameButFreeValues s s') (hs : s.state = .exhausted) :
    SameOutcome (exec i s) (exec i s') := by
  have hs' := h.state.trans hs
  cases i with
  | init => exact (execInit_agree h.stream).sameOutcome h.result completeInit_sameResults
  | declogp logp =>
    by_cases hl : logpLegal logp
    · rw [exec_declogp_legal hl, exec_declogp_legal hl, whenReady_exhausted hs, whenReady_exhausted hs']
      exact sameOutcome_next (h.sameResults_err .exhausted)
    · rw [show exec (.declogp logp) s = _ from if_neg hl, show exec (.declogp logp) s' = _ from if_neg hl]
      exact sameOutcome_next (h.sameResults_err .illegal)
  | decicdf tbase nsym =>
    by_cases hl : nsymLegal nsym ∧ windowLegal tbase nsym
    · obtain ⟨hn, hw⟩ := hl
      rw [exec_decicdf_legal hn hw, exec_decicdf_legal hn hw, whenReady_exhausted hs, whenReady_exhausted hs']
      exact sameOutcome_next (h.sameResults_err .exhausted)
    · rw [show exec (.decicdf tbase nsym) s = _ from if_neg hl, show exec (.decicdf tbase nsym) s' = _ from if_neg hl]
      exact sameOutcome_next (h.sameResults_err .illegal)
  | lutrd idx => exact sameOutcome_next ⟨rfl, rfl, h.state, h.stream, h.2⟩

theorem executeWord_sameOutcome (w : Word) (h : SameButFreeValues s s') :
    SameOutcome (executeWord w s) (executeWord w s') := by
  cases hd : decodeWord w with
  | illegal why =>
    rw [executeWord, executeWord, hd]
    exact sameOutcome_next (h.sameResults_err .illegal)
  | legal i =>
    rw [executeWord_legal hd, executeWord_legal hd]
    by_cases hs : s.state = .exhausted
    · exact exec_sameOutcome_of_exhausted i h hs
    · exact exec_sameOutcome i (h.sameInputs hs) fun a => by rw [h.table]

/-- From states that differ in free values alone, commands with the same results leave states that differ so too. -/
theorem SameResults.sameButFreeValues (h : SameResults t t') (hs : SameButFreeValues s s') (ht : CoreStep s t)
    (ht' : CoreStep s' t') : SameButFreeValues t t' := by
  obtain ⟨hresult, herr, hstate, hstream, hcoder⟩ := h
  refine ⟨?_, hcoder⟩
  have hfetched : t'.fetched = t.fetched := by
    obtain ⟨n, hn, hst, hf⟩ := ht.source
    obtain ⟨n', hn', hst', hf'⟩ := ht'.source
    have hlen := congrArg List.length hstream
    rw [hst, hst', List.length_drop, List.length_drop, hs.stream] at hlen
    rw [hs.stream] at hn'
    rw [hf, hf', hs.fetched]
    omega
  have hframe := ht.sameButCommand
  have hframe' := ht'.sameButCommand
  unfold SameButCommand at hframe hframe'
  rw [hframe', hresult, herr, hstate, hstream, hfetched, hs.1, hframe]

/-- Both outcomes are next states that differ in free values alone, or both are the same refusal. -/
def StepsAlike (o o' : Host.Outcome State Fault Refusal) : Prop :=
  (∃ t t', o = .next t ∧ o' = .next t' ∧ SameButFreeValues t t') ∨ ∃ r, o = .refused r ∧ o' = .refused r

theorem stepsAlike_next (h : SameButFreeValues s s') : StepsAlike (.next s) (.next s') := .inl ⟨s, s', rfl, rfl, h⟩

/-- A command that stops in one of the states stops in the other: had it a next state there, it had one here. -/
theorem executeWord_stepsAlike (w : Word) (h : SameButFreeValues s s') :
    StepsAlike (executeWord w s) (executeWord w s') := by
  rcases executeWord_answers w s with ⟨t, he⟩ | ⟨he, -⟩
  · obtain ⟨t', he', hresults⟩ := executeWord_sameOutcome w h t he
    exact .inl ⟨t, t', he, he', hresults.sameButFreeValues h (executeWord_coreStep he) (executeWord_coreStep he')⟩
  · rcases executeWord_answers w s' with ⟨t', he'⟩ | ⟨he', -⟩
    · obtain ⟨t, ht, -⟩ := executeWord_sameOutcome w h.symm t' he'
      cases he.symm.trans ht
    · exact .inr ⟨_, he, he'⟩

theorem applyReset_sameButFreeValues (h : SameButFreeValues s s') : SameButFreeValues (applyReset s) (applyReset s') :=
  ⟨by rw [h.1]; rfl, fun _ => ⟨rfl, rfl, rfl, rfl⟩⟩

/-- What a reset inside a command takes is counted, and the counts are the same. -/
theorem resetDuring_stepsAlike (w : Word) (n : Nat) (h : SameButFreeValues s s') :
    StepsAlike (resetDuring w n s) (resetDuring w n s') := by
  rcases executeWord_stepsAlike w h with ⟨t, t', he, he', ht⟩ | ⟨r, he, he'⟩
  · rw [resetDuring_next n he, resetDuring_next n he', ht.fetched, h.fetched]
    exact stepsAlike_next (applyReset_sameButFreeValues ⟨by rw [h.1]; rfl, h.2⟩)
  · exact .inr ⟨r, resetDuring_refused n he, resetDuring_refused n he'⟩

theorem idleStep_stepsAlike (x : HostStep) (h : SameButFreeValues s s') : StepsAlike (idleStep x s) (idleStep x s') := by
  cases x with
  | command w => exact executeWord_stepsAlike w h
  | setStream bytes => exact stepsAlike_next ⟨by rw [h.1]; rfl, h.2⟩
  | writeTable a v => exact stepsAlike_next ⟨by rw [h.1]; rfl, h.2⟩
  | readReg a =>
    refine stepsAlike_next ?_
    rw [readPort_eq s a, readPort_eq s' a]
    exact ⟨by rw [h.1], h.2⟩
  | reset => exact stepsAlike_next (applyReset_sameButFreeValues h)
  | resetDuring w n => exact resetDuring_stepsAlike w n h

theorem step_stepsAlike (hi : Idle s) (h : SameButFreeValues s s') : StepsAlike (step s) (step s') := by
  have hi' : Idle s' := h.inFlight.trans hi
  cases hq : s.host with
  | nil =>
    rw [step_idle_nil hi hq, step_idle_nil hi' (h.host.trans hq)]
    exact stepsAlike_next h
  | cons x q =>
    rw [step_idle_cons hi hq, step_idle_cons hi' (h.host.trans hq)]
    exact idleStep_stepsAlike x ⟨by rw [h.1], h.2⟩

/-- What a run shows that begins with a step from `s` to `t`, from what the rest of it shows. -/
def seenBefore (s t : State) : Host.Outcome RunObservation Fault Refusal → Host.Outcome RunObservation Fault Refusal
  | .next o => .next (if completesNext s then { o with ports := observe t :: o.ports } else o)
  | .fault r => .fault r
  | .refused r => .refused r

theorem runSteps_fault_later {fuel : Nat} (hs : runEnded s = false) (ht : step s = .next t) {r : Fault}
    (he : runSteps fuel t = .fault r) : runSteps (fuel + 1) s = .fault r := by
  simp [runSteps, hs, ht, he]

theorem seenOf_runSteps_succ {fuel : Nat} (hs : runEnded s = false) (ht : step s = .next t) :
    seenOf (runSteps (fuel + 1) s) = seenBefore s t (seenOf (runSteps fuel t)) := by
  cases he : runSteps fuel t with
  | next e =>
    rw [runSteps_next hs ht he, seenOf, seenOf, seenBefore]
    split
    · rfl
    · rfl
  | fault r =>
    rw [runSteps_fault_later hs ht he]
    rfl
  | refused r =>
    rw [runSteps_refused_later hs ht he]
    rfl

/-- Each step is alike in the two runs, and shows the same. -/
theorem seenOf_runSteps_eq (fuel : Nat) (hi : Idle s) (h : SameButFreeValues s s') :
    seenOf (runSteps fuel s') = seenOf (runSteps fuel s) := by
  induction fuel generalizing s s' with
  | zero => simp only [runSteps, seenOf, h.fetched]
  | succ fuel ih =>
    cases hs : runEnded s with
    | true =>
      rw [runSteps_ended _ hs, runSteps_ended _ (h.runEnded_eq.trans hs)]
      simp only [seenOf, h.fetched]
    | false =>
      have hs' : runEnded s' = false := h.runEnded_eq.trans hs
      rcases step_stepsAlike hi h with ⟨t, t', ht, ht', hsame⟩ | ⟨r, hr, hr'⟩
      · rw [seenOf_runSteps_succ hs ht, seenOf_runSteps_succ hs' ht', ih (step_idle hi ht) hsame]
        unfold seenBefore
        rw [h.completesNext_eq, hsame.observe_eq]
      · rw [runSteps_refused hs hr, runSteps_refused hs' hr']

/-- Settles O56: no step of the run, and nothing it shows, depends on a free value. -/
theorem runShowsNoFreeValue : Obligations.RunShowsNoFreeValue := by
  unfold Obligations.RunShowsNoFreeValue
  intro s s' hi h
  rw [run, run, h.host]
  exact seenOf_runSteps_eq _ hi h

end Sys2Proof.Machine
end
